-- ==== Sys2Proof/Word.lean ====
section
/-! DEFINITION. The word types of the block: every datum is an unsigned byte, every register of the window and
every command a 32-bit word (00_scope.md R10, 30_encoding.md R70). -/

namespace Sys2Proof

/-- A field element, index, count or operand: an unsigned 8-bit value (R10). -/
abbrev Byte := BitVec 8

/-- A register of the host window, or a command word (R36, R70). -/
abbrev Word := BitVec 32

/-- A polynomial over GF(2) of degree at most 8, bit i the coefficient of x^i: the type of POLY (R8). -/
abbrev PolyBits := BitVec 9

/-- The 15-bit carry-less product of two bytes (R101). -/
abbrev Product := BitVec 15

end Sys2Proof
end

