-- ==== Sys2Proof/Syntax.lean ====
section
/-! DEFINITION. The commands of 30_encoding.md R75, one constructor for each row of opcode_table.json, the raw
fields of a command word (R70) and the operand shapes (R74). -/

namespace Sys2Proof

/-- Where an operand comes from: the immediate in the command's field, or the register R when the select bit
is 1 (R73). -/
inductive Src where
  | imm (v : Byte)
  | r
  deriving DecidableEq, Repr

/-- The commands. An argument of type `Byte` is a count or an index that only field A can give; one of type
`Src` may be R (R74). -/
inductive Instr where
  | nop
  | add (a b : Src)
  | mul (a b : Src)
  | div (a b : Src)
  | inv (a : Src)
  | pow (a n : Src)
  | log (a : Src)
  | exp (i : Src)
  | sett (t : Byte)
  | wrc (i : Byte) (v : Src)
  | rdc (i : Byte)
  | eval (x : Src)
  | evalx
  | setk (k : Byte)
  | wrx (i : Byte) (v : Src)
  | wry (i : Byte) (v : Src)
  | rdx (i : Byte)
  | rdy (i : Byte)
  | rdw (i : Byte)
  | lagw
  | lcomb
  | interp
  | zero
  deriving DecidableEq, Repr

/-- The fields of a command word (R70). -/
structure Fields where
  /-- OPC, bits 31:24. -/
  opc : Byte
  /-- RSV, bits 23:18. -/
  rsv : BitVec 6
  /-- SB, bit 17. -/
  sb : Bool
  /-- SA, bit 16. -/
  sa : Bool
  /-- A, bits 15:8. -/
  a : Byte
  /-- B, bits 7:0. -/
  b : Byte
  deriving DecidableEq, Repr

/-- The operand shapes of R74. -/
inductive Shape where
  | none | ab | a | n | iv
  deriving DecidableEq, Repr

end Sys2Proof
end

