-- ==== Sys2Proof/WellFormed.lean ====
section
/-! DEFINITION. Which command fields are legal, declaratively: the six conditions of 30_encoding.md R76, each a
check of its own over the shape table of R74. The decoder (Decode.lean) is written separately, from R73 to R76;
that the two agree is a statement (Obligations.IllegalWordsAreRule76). -/

namespace Sys2Proof

/-- The shape does use field A (R74). -/
def Shape.usesA : Shape → Bool
  | .none => false
  | .ab | .a | .n | .iv => true

/-- The shape does use field B (R74). -/
def Shape.usesB : Shape → Bool
  | .none | .a | .n => false
  | .ab | .iv => true

/-- The shape allows SA = 1 (R74). -/
def Shape.allowsSA : Shape → Bool
  | .none | .n | .iv => false
  | .ab | .a => true

/-- The shape allows SB = 1 (R74). -/
def Shape.allowsSB : Shape → Bool
  | .none | .a | .n => false
  | .ab | .iv => true

/-- The opcodes of each shape, as the last column of R74 lists them. -/
def Shape.opcodes : Shape → List Byte
  | .none => [0x00#8, 0x14#8, 0x26#8, 0x27#8, 0x28#8, 0x30#8]
  | .ab => [0x01#8, 0x02#8, 0x03#8, 0x05#8]
  | .a => [0x04#8, 0x06#8, 0x07#8, 0x13#8]
  | .n => [0x10#8, 0x20#8, 0x12#8, 0x23#8, 0x24#8, 0x25#8]
  | .iv => [0x11#8, 0x21#8, 0x22#8]

/-- The five shapes. -/
def Shape.all : List Shape := [.none, .ab, .a, .n, .iv]

/-- The shape of an opcode, none for the 233 undefined values (R74, R76 case 1). -/
def shapeOf (opc : Byte) : Option Shape := Shape.all.find? (fun sh => sh.opcodes.contains opc)

namespace Fields

/-- Not R76 case 1: the opcode is defined. -/
def opcodeOk (f : Fields) : Bool := (shapeOf f.opc).isSome

/-- Not R76 case 2: RSV is 0. -/
def rsvOk (f : Fields) : Bool := f.rsv == 0#6

/-- Not R76 case 3: SA is 0 where the shape does not allow it. -/
def saOk (f : Fields) : Bool := (shapeOf f.opc).all (fun sh => !f.sa || sh.allowsSA)

/-- Not R76 case 4: SB is 0 where the shape does not allow it. -/
def sbOk (f : Fields) : Bool := (shapeOf f.opc).all (fun sh => !f.sb || sh.allowsSB)

/-- Not R76 case 5: an unused field A that SA does not replace is 0. -/
def unusedAOk (f : Fields) : Bool := (shapeOf f.opc).all (fun sh => sh.usesA || f.sa || f.a == 0#8)

/-- Not R76 case 6: an unused field B that SB does not replace is 0. -/
def unusedBOk (f : Fields) : Bool := (shapeOf f.opc).all (fun sh => sh.usesB || f.sb || f.b == 0#8)

/-- The fields are those of a legal command: none of the six conditions of R76 holds. -/
def wellFormed (f : Fields) : Bool :=
  f.opcodeOk && f.rsvOk && f.saOk && f.sbOk && f.unusedAOk && f.unusedBOk

end Fields

end Sys2Proof
end

