-- ==== Sys2Proof/Decode.lean ====
section
/-! DEFINITION. The decoder, total on any bytes and rejecting by name (30_encoding.md R70 to R78, R81), and
after it the encoder of a command (R70, R79). -/

namespace Sys2Proof

/-- Why bytes are not a command. The last six are the conditions of R76 in their order; the block answers each
of them with ILLEGAL_CMD. -/
inductive DecodeError where
  /-- Fewer than the 4 bytes of a command (R81). No CMD write produces it. -/
  | truncated
  /-- R76 case 1. -/
  | undefinedOpcode
  /-- R76 case 2. -/
  | reservedBits
  /-- R76 case 3. -/
  | saNotAllowed
  /-- R76 case 4. -/
  | sbNotAllowed
  /-- R76 case 5. -/
  | unusedA
  /-- R76 case 6. -/
  | unusedB
  deriving DecidableEq, Repr

/-! ## Opcode values (R75) -/

namespace Opcode
def nop : Byte := 0x00#8
def add : Byte := 0x01#8
def mul : Byte := 0x02#8
def div : Byte := 0x03#8
def inv : Byte := 0x04#8
def pow : Byte := 0x05#8
def log : Byte := 0x06#8
def exp : Byte := 0x07#8
def sett : Byte := 0x10#8
def wrc : Byte := 0x11#8
def rdc : Byte := 0x12#8
def eval : Byte := 0x13#8
def evalx : Byte := 0x14#8
def setk : Byte := 0x20#8
def wrx : Byte := 0x21#8
def wry : Byte := 0x22#8
def rdx : Byte := 0x23#8
def rdy : Byte := 0x24#8
def rdw : Byte := 0x25#8
def lagw : Byte := 0x26#8
def lcomb : Byte := 0x27#8
def interp : Byte := 0x28#8
def zero : Byte := 0x30#8
end Opcode

/-- What a command is made of, by shape: the constructor that its operands complete (R74). -/
inductive Form where
  | none (i : Instr)
  | ab (mk : Src → Src → Instr)
  | a (mk : Src → Instr)
  | n (mk : Byte → Instr)
  | iv (mk : Byte → Src → Instr)

/-- The rows of the arithmetic unit (R75). -/
def arithmeticRows : List (Byte × Form) :=
  [ (Opcode.nop, .none .nop), (Opcode.add, .ab .add), (Opcode.mul, .ab .mul), (Opcode.div, .ab .div),
    (Opcode.inv, .a .inv), (Opcode.pow, .ab .pow), (Opcode.log, .a .log), (Opcode.exp, .a .exp) ]

/-- The rows of the polynomial evaluator (R75). -/
def evaluatorRows : List (Byte × Form) :=
  [ (Opcode.sett, .n .sett), (Opcode.wrc, .iv .wrc), (Opcode.rdc, .n .rdc), (Opcode.eval, .a .eval),
    (Opcode.evalx, .none .evalx) ]

/-- The rows of the Lagrange interpolator (R75). -/
def interpolatorRows : List (Byte × Form) :=
  [ (Opcode.setk, .n .setk), (Opcode.wrx, .iv .wrx), (Opcode.wry, .iv .wry), (Opcode.rdx, .n .rdx),
    (Opcode.rdy, .n .rdy), (Opcode.rdw, .n .rdw), (Opcode.lagw, .none .lagw), (Opcode.lcomb, .none .lcomb),
    (Opcode.interp, .none .interp) ]

/-- The row of the housekeeping command (R75). -/
def housekeepingRows : List (Byte × Form) := [ (Opcode.zero, .none .zero) ]

/-- The opcode map, in the order of R75. -/
def opcodeMap : List (Byte × Form) := arithmeticRows ++ evaluatorRows ++ interpolatorRows ++ housekeepingRows

/-- The row of an opcode, none for an undefined one (R71, R76 case 1). -/
def formOf (opc : Byte) : Option Form := (opcodeMap.find? (fun row => row.1 == opc)).map (·.2)

/-! ## Fields and bytes -/

/-- Cut a word into its fields (R70). -/
def Fields.ofWord (w : Word) : Fields :=
  { opc := w.extractLsb' 24 8, rsv := w.extractLsb' 18 6, sb := w.getLsbD 17, sa := w.getLsbD 16,
    a := w.extractLsb' 8 8, b := w.extractLsb' 0 8 }

/-- Put fields together as a word (R70). -/
def Fields.toWord (f : Fields) : Word :=
  f.opc ++ f.rsv ++ BitVec.ofBool f.sb ++ BitVec.ofBool f.sa ++ f.a ++ f.b

/-- The word whose byte lanes are b0 (lowest address) to b3: little-endian (20_memory.md R55, R81). -/
def wordOfBytes (b0 b1 b2 b3 : Byte) : Word := b3 ++ b2 ++ b1 ++ b0

/-- The byte lanes of a word, lowest address first (R55). -/
def bytesOfWord (w : Word) : List Byte :=
  [w.extractLsb' 0 8, w.extractLsb' 8 8, w.extractLsb' 16 8, w.extractLsb' 24 8]

/-! ## Decoding -/

/-- An operand: R when its select bit is 1, and then its field is not read (R73). -/
def operand (select : Bool) (field : Byte) : Src := if select then .r else .imm field

/-- Check 5 of R76 for a shape that does not use A. -/
def checkNoA (f : Fields) (k : Except DecodeError Instr) : Except DecodeError Instr :=
  if f.a = 0#8 then k else .error .unusedA

/-- Check 6 of R76 for a shape that does not use B. -/
def checkNoB (f : Fields) (k : Except DecodeError Instr) : Except DecodeError Instr :=
  if f.b = 0#8 then k else .error .unusedB

/-- The checks 3 to 6 of R76 in their order, then the command, for a defined opcode with RSV = 0. -/
def decodeForm (form : Form) (f : Fields) : Except DecodeError Instr :=
  match form with
  | .ab mk => .ok (mk (operand f.sa f.a) (operand f.sb f.b))
  | .iv mk => if f.sa then .error .saNotAllowed else .ok (mk f.a (operand f.sb f.b))
  | .a mk => if f.sb then .error .sbNotAllowed else checkNoB f (.ok (mk (operand f.sa f.a)))
  | .n mk =>
    if f.sa then .error .saNotAllowed
    else if f.sb then .error .sbNotAllowed
    else checkNoB f (.ok (mk f.a))
  | .none i =>
    if f.sa then .error .saNotAllowed
    else if f.sb then .error .sbNotAllowed
    else checkNoA f (checkNoB f (.ok i))

/-- Decode the fields of a word: the checks of R76 in the order 1 to 6. -/
def decodeFields (f : Fields) : Except DecodeError Instr :=
  match formOf f.opc with
  | none => .error .undefinedOpcode
  | some form => if f.rsv = 0#6 then decodeForm form f else .error .reservedBits

/-- Decode a command word: exactly one command or illegal, by name (R78). -/
def decodeWord (w : Word) : Except DecodeError Instr := decodeFields (Fields.ofWord w)

/-- Decode a command from bytes, lowest address first, and give back the bytes after it (R55, R81). -/
def decode : List Byte → Except DecodeError (Instr × List Byte)
  | b0 :: b1 :: b2 :: b3 :: rest =>
    match decodeWord (wordOfBytes b0 b1 b2 b3) with
    | .ok i => .ok (i, rest)
    | .error e => .error e
  | _ => .error .truncated

/-- The 32-bit word that an opcode-table row of `nbits` bits gives: bits above `nbits` are 0. -/
def tableWord (nbits w : Nat) : Word := BitVec.ofNat 32 (w % 2 ^ nbits)

/-- The instruction the decoder reads from a row of the opcode table. A table row's numbering is the command
word's own (R70), and its bytes lie little-endian (R81). -/
def decodeTableWord (nbits w : Nat) : Option Instr :=
  match decode (bytesOfWord (tableWord nbits w)) with
  | .ok (i, _) => some i
  | .error _ => none

/-! ## Encoding -/

/-- The select bit an operand sets (R73, R79). -/
def Src.select : Src → Bool
  | .imm _ => false
  | .r => true

/-- The field an operand puts in the word: "The assembler of rule R79 writes 0 into a field replaced by R"
(R73). -/
def Src.field : Src → Byte
  | .imm v => v
  | .r => 0#8

/-- Fields of shape `none` (R74). -/
def fieldsNone (opc : Byte) : Fields := { opc := opc, rsv := 0#6, sb := false, sa := false, a := 0#8, b := 0#8 }

/-- Fields of shape `ab` (R74). -/
def fieldsAB (opc : Byte) (a b : Src) : Fields :=
  { opc := opc, rsv := 0#6, sb := b.select, sa := a.select, a := a.field, b := b.field }

/-- Fields of shape `a` (R74). -/
def fieldsA (opc : Byte) (a : Src) : Fields :=
  { opc := opc, rsv := 0#6, sb := false, sa := a.select, a := a.field, b := 0#8 }

/-- Fields of shape `n` (R74). -/
def fieldsN (opc n : Byte) : Fields := { opc := opc, rsv := 0#6, sb := false, sa := false, a := n, b := 0#8 }

/-- Fields of shape `iv` (R74). -/
def fieldsIV (opc i : Byte) (v : Src) : Fields :=
  { opc := opc, rsv := 0#6, sb := v.select, sa := false, a := i, b := v.field }

/-- The fields of a command (R70, R74, R75). -/
def Instr.fields : Instr → Fields
  | .nop => fieldsNone Opcode.nop
  | .add a b => fieldsAB Opcode.add a b
  | .mul a b => fieldsAB Opcode.mul a b
  | .div a b => fieldsAB Opcode.div a b
  | .inv a => fieldsA Opcode.inv a
  | .pow a n => fieldsAB Opcode.pow a n
  | .log a => fieldsA Opcode.log a
  | .exp i => fieldsA Opcode.exp i
  | .sett t => fieldsN Opcode.sett t
  | .wrc i v => fieldsIV Opcode.wrc i v
  | .rdc i => fieldsN Opcode.rdc i
  | .eval x => fieldsA Opcode.eval x
  | .evalx => fieldsNone Opcode.evalx
  | .setk k => fieldsN Opcode.setk k
  | .wrx i v => fieldsIV Opcode.wrx i v
  | .wry i v => fieldsIV Opcode.wry i v
  | .rdx i => fieldsN Opcode.rdx i
  | .rdy i => fieldsN Opcode.rdy i
  | .rdw i => fieldsN Opcode.rdw i
  | .lagw => fieldsNone Opcode.lagw
  | .lcomb => fieldsNone Opcode.lcomb
  | .interp => fieldsNone Opcode.interp
  | .zero => fieldsNone Opcode.zero

/-- The opcode of a command. -/
def Instr.opcode (i : Instr) : Byte := i.fields.opc

/-- The canonical word of a command (R73, R79). -/
def encode (i : Instr) : Word := i.fields.toWord

/-- The bytes of a command, lowest address first (R81). -/
def encodeBytes (i : Instr) : List Byte := bytesOfWord (encode i)

/-- The instruction's fields pass the six checks of R76. -/
def Instr.wellFormed (i : Instr) : Bool := i.fields.wellFormed

end Sys2Proof
end

