-- ==== Sys2Proof/Config.lean ====
section
/-! DEFINITION. The implementation parameters of 00_scope.md R8. POLY, GEN, NC and NP are a record, because
results and the PARAM register depend on them; BASE, LAT and LAT_RESET are open (92_eei_decisions.md D18, D24,
D40) and are constants of which nothing can be proved but what R8 requires of them. -/

namespace Sys2Proof

/-- The parameters a value of the block can depend on (R8, R9). Which records are legal is
`configOk` in Machine/Field.lean. -/
structure Config where
  /-- POLY, the field polynomial as a 9-bit integer. -/
  poly : PolyBits
  /-- GEN, the generator of the tables. -/
  gen : Byte
  /-- NC, the number of entries of the coefficient file. -/
  nc : Nat
  /-- NP, the number of entries of the point files. -/
  np : Nat
  deriving DecidableEq, Repr

/-- GF256-CORE/11B, the default configuration (R2). -/
def Config.core11B : Config := { poly := 0x11B#9, gen := 0x03#8, nc := 255, np := 255 }

/-- Which 64-byte block of the platform's addresses the window is. Open (D18): a constant without a value. -/
opaque Config.baseBlock : Nat

/-- BASE, "any 64-byte-aligned address the platform chooses" (R8). -/
def Config.base : Nat := 64 * Config.baseBlock

/-- LAT above its least value. Open (D24): a constant without a value. -/
opaque Config.latExtra : Byte → Byte → Byte → Nat

/-- LAT(opc, T, K): a finite number of engine cycles, at least 1 (R8, R261). No step reads it: "A model
represents time only as the interleaving of engine steps with host steps" (R261). -/
def Config.lat (opc t k : Byte) : Nat := Config.latExtra opc t k + 1

/-- LAT_RESET above its least value. Open (D40): a constant without a value. -/
opaque Config.latResetExtra : Nat

/-- LAT_RESET: a finite number of engine cycles, at least 1 (R8, R252). No step reads it. -/
def Config.latReset : Nat := Config.latResetExtra + 1

end Sys2Proof
end

