-- ==== Sys2Proof/Machine/Field.lean ====
section
/-! DEFINITION. The field functions of 40_field_arithmetic.md R100 to R105, the tables of 10_state.md R29 and R30
as the pure functions R31 asks for, and which configurations are legal (00_scope.md R8). -/

namespace Sys2Proof.Machine

/-! ## Addition and multiplication -/

/-- Field addition and subtraction: bitwise XOR (R100). -/
def gfAdd (a b : Byte) : Byte := a ^^^ b

/-- The 15-bit carry-less product of two bytes, the first loop of R101. -/
def clMul (a b : Byte) : Product :=
  (List.range 8).foldl (fun p i => if b.getLsbD i then p ^^^ (a.setWidth 15 <<< i) else p) 0#15

/-- One pass of the second loop of R101: cancel bit i of p with POLY shifted under it. -/
def reduceBit (poly : PolyBits) (p : Product) (i : Nat) : Product :=
  if p.getLsbD i then p ^^^ (poly.setWidth 15 <<< (i - 8)) else p

/-- Reduce a 15-bit product modulo POLY: the second loop of R101, from bit 14 down to bit 8, then p[7:0]. -/
def reduce (poly : PolyBits) (p : Product) : Byte :=
  ([14, 13, 12, 11, 10, 9, 8].foldl (reduceBit poly) p).extractLsb' 0 8

/-- Field multiplication (R101). -/
def gfMul (cfg : Config) (a b : Byte) : Byte := reduce cfg.poly (clMul a b)

/-! ## Tables -/

/-- `k p`, written so that a kernel which evaluates it knows the numeral p before it goes on (that is all it is
for: `forced_eq` in Laws/Field.lean). -/
def forced {α : Type} (p : Byte) (k : Byte → α) : α :=
  match p.toNat with
  | 0 => k 0x00#8
  | n + 1 => k (BitVec.ofNat 8 (n + 1))

/-- The value n places after `p` in the sequence of the powers of GEN: multiply by GEN n times (R29). -/
def genSteps (cfg : Config) : (n : Nat) → (p : Byte) → Byte
  | 0, p => p
  | n + 1, p => forced (gfMul cfg p cfg.gen) (genSteps cfg n)

/-- GEN to the i-th power by the recurrence of R29, from EXP[0] = 0x01 up. -/
def genPow (cfg : Config) (i : Nat) : Byte := genSteps cfg i 0x01#8

/-- EXP[i] for i in 0..255 (R29). Entry 255 is 0x01 by definition (92_eei_decisions.md D4). -/
def expEntry (cfg : Config) (i : Nat) : Byte := if i = 255 then 0x01#8 else genPow cfg i

/-- Search the powers of GEN for `a`, from the one with exponent `i` and value `p`, over `n` exponents. -/
def logSearch (cfg : Config) (a : Byte) : (n i : Nat) → (p : Byte) → Option Nat
  | 0, _, _ => none
  | n + 1, i, p => if p = a then some i else forced (gfMul cfg p cfg.gen) (logSearch cfg a n (i + 1))

/-- LOG[a]: the i in 0..254 with EXP[i] = a (R30). Entry 0 has no value, and neither has an element that is no
power of GEN (in a configuration R8 calls ill formed). -/
def logEntry (cfg : Config) (a : Byte) : Option Nat := if a = 0x00#8 then none else logSearch cfg a 255 0 0x01#8

/-! ## The functions over the tables -/

/-- The table form of multiplication (R102). Commands use `gfMul`, which it equals. -/
def gfMulT (cfg : Config) (a b : Byte) : Option Byte :=
  if a = 0x00#8 ∨ b = 0x00#8 then some 0x00#8
  else match logEntry cfg a, logEntry cfg b with
    | some la, some lb => some (expEntry cfg ((la + lb) % 255))
    | _, _ => none

/-- Field division (R103). Division by 0 has no value. -/
def gfDiv (cfg : Config) (a b : Byte) : Option Byte :=
  if b = 0x00#8 then none
  else if a = 0x00#8 then some 0x00#8
  else match logEntry cfg a, logEntry cfg b with
    | some la, some lb => some (expEntry cfg ((la + 255 - lb) % 255))
    | _, _ => none

/-- Field inversion (R104). -/
def gfInv (cfg : Config) (a : Byte) : Option Byte := gfDiv cfg 0x01#8 a

/-- Field exponentiation with an 8-bit exponent (R105). -/
def gfPow (cfg : Config) (a n : Byte) : Option Byte :=
  if n = 0x00#8 then some 0x01#8
  else if a = 0x00#8 then some 0x00#8
  else (logEntry cfg a).map (fun la => expEntry cfg ((la * n.toNat) % 255))

/-! ## Legal configurations -/

/-- The degree of a nonzero polynomial over GF(2). -/
def degreeOf (d : PolyBits) : Nat := Nat.log2 d.toNat

/-- The remainder of p divided by a nonzero d, over GF(2): cancel the bits of p from bit 8 down to the degree
of d. -/
def polyRem (p d : PolyBits) : PolyBits :=
  [8, 7, 6, 5, 4, 3, 2, 1].foldl
    (fun p i => if degreeOf d ≤ i ∧ p.getLsbD i then p ^^^ (d <<< (i - degreeOf d)) else p) p

/-- POLY is irreducible of degree 8 (R8): bit 8 is set and none of the polynomials of degree 1 to 4 divides it. -/
def irreducible (poly : PolyBits) : Bool :=
  poly.getLsbD 8 && (List.range 30).all (fun j => polyRem poly (BitVec.ofNat 9 (j + 2)) != 0#9)

/-- Search for the first exponent at which a power of GEN is 1, from exponent `i` with value `p`, over `n`
exponents. -/
def orderSearch (cfg : Config) : (n i : Nat) → (p : Byte) → Option Nat
  | 0, _, _ => none
  | n + 1, i, p => if p = 0x01#8 then some i else forced (gfMul cfg p cfg.gen) (orderSearch cfg n (i + 1))

/-- The multiplicative order of GEN under POLY, none when no power up to 255 is 1. -/
def genOrder (cfg : Config) : Option Nat := orderSearch cfg 255 1 cfg.gen

/-- The configurations R8 calls well formed: POLY irreducible, GEN of order 255, NC and NP in 2..255. -/
def configOk (cfg : Config) : Bool :=
  irreducible cfg.poly && genOrder cfg == some 255 &&
  decide (2 ≤ cfg.nc ∧ cfg.nc ≤ 255) && decide (2 ≤ cfg.np ∧ cfg.np ≤ 255)

end Sys2Proof.Machine
end

