-- ==== Sys2Proof/Machine/State.lean ====
section
/-! DEFINITION. The state of the block as plain data: the tuple of 10_state.md R20, the configuration it runs
under, and the model's own record of what the host and the reset source do. -/

namespace Sys2Proof.Machine

/-! ## Register files -/

/-- A register file (C, X, Y or W): the entries that do not hold 0x00 as (index, byte) pairs, indexes strictly
rising. An unlisted index reads as the reset contents 0x00 (R24 to R27; DESIGN CHOICE of representation, safe,
log 10). -/
abbrev Memory := List Host.Cell

/-! ## The error record -/

/-- The error record of R35. -/
structure ErrorRecord where
  /-- CODE: 0x00 when no error is pending. -/
  code : Byte
  /-- OPC: bits 31:24 of the command word that raised it. -/
  opc : Byte
  /-- INFO: the value the raising rule names. -/
  info : Byte
  /-- MULTI: a further error or dropped command occurred while CODE was nonzero. -/
  multi : Bool
  deriving DecidableEq, Repr

/-- The record with no error pending (R35: "Reset value: all fields 0"). -/
def ErrorRecord.clear : ErrorRecord := { code := 0x00#8, opc := 0x00#8, info := 0x00#8, multi := false }

/-! ## What the other agents do -/

/-- The size of a host access (20_memory.md R52, R53). -/
inductive Size where
  | byte | half | word
  deriving DecidableEq, Repr

/-- One host access at a platform address (R51, R52). A write carries its byte strobes, one bit for each of the
four lanes (R53; DEDUCED, log 16). -/
inductive Access where
  | read (size : Size) (addr : Nat)
  | write (size : Size) (addr : Nat) (strobes : BitVec 4) (data : Word)
  deriving DecidableEq, Repr

/-- Which agent steps, and what it does (00_scope.md R7). -/
inductive Turn where
  /-- The host performs one access. All bus masters are one host (R59; DESIGN CHOICE, safe, log 17). -/
  | host (access : Access)
  /-- The engine completes the accepted command, or ends the reset sequence, or is idle. -/
  | engine
  /-- The reset source asserts `rst` (70_reset_and_hazards.md R250; DESIGN CHOICE, log 18). -/
  | reset
  deriving DecidableEq, Repr

/-! ## The state -/

/-- The state of the block. The fields down to `err` are the tuple of R20, where BUSY is `pending.isSome`
(R33: the pending word has a value exactly while BUSY = 1; DEDUCED, safe, log 5) and the tables are functions of
`cfg` (R31; log 6). -/
structure State where
  /-- R, the result register (R21). -/
  r : Byte
  /-- T, the threshold register (R22). -/
  t : Byte
  /-- K, the point-count register (R23). -/
  k : Byte
  /-- C[0..NC-1], the coefficient file (R24). -/
  c : Memory
  /-- X[0..NP-1], the identifier file (R25). -/
  x : Memory
  /-- Y[0..NP-1], the value file (R26). -/
  y : Memory
  /-- W[0..NP-1], the weight file (R27). -/
  w : Memory
  /-- WVALID (R28). -/
  wvalid : Bool
  /-- READY (R33). -/
  ready : Bool
  /-- The pending command word (R33). -/
  pending : Option Word
  /-- DONE, sticky (R33). -/
  done : Bool
  /-- IE_DONE, CTRL[0] (R34). -/
  ieDone : Bool
  /-- IE_ERR, CTRL[1] (R34). -/
  ieErr : Bool
  /-- The error record (R35). -/
  err : ErrorRecord
  /-- The configuration, which no step changes (R8, R20; DESIGN CHOICE, safe, log 1). -/
  cfg : Config
  /-- The turns still to come, the next one first (R7; DESIGN CHOICE, safe, log 2). -/
  agenda : List Turn
  /-- The values the host's reads have returned, oldest first (R52; DESIGN CHOICE, safe, log 3). -/
  replies : List Word
  deriving DecidableEq, Repr

/-- BUSY: a command is executing (R33, R40). -/
def State.busy (s : State) : Bool := s.pending.isSome

/-- The block right after a reset, before the reset sequence has ended (R251), in the default configuration
(R2). Nothing is planned and no read has been answered. -/
def State.reset : State where
  r := 0x00#8
  t := 0x00#8
  k := 0x00#8
  c := []
  x := []
  y := []
  w := []
  wvalid := false
  ready := false
  pending := none
  done := false
  ieDone := false
  ieErr := false
  err := ErrorRecord.clear
  cfg := Config.core11B
  agenda := []
  replies := []

/-! ## Stops -/

/-- Why the machine stops with a fault. No well-formed configuration (R8) reaches one. -/
inductive Fault where
  /-- A table entry was looked up that the configuration does not have: GEN is no generator of the field, which
  R8 calls ill formed. Raised by DIV, INV, POW, LOG, LAGW and INTERP. Safe: no legal block is such a machine
  (DESIGN CHOICE, log 7). -/
  | noTableValue
  deriving DecidableEq, Repr

/-- Why a step has no meaning in this model. -/
inductive Refusal where
  /-- A command without a meaning yet, by its mnemonic. Raised by exec's refused arms. Safe. -/
  | notModelled (mnemonic : String)
  /-- A host access outside BASE to BASE+0x3F: "Accesses outside the window do not reach the block, and what they
  do is the platform's business" (R51; 93_implementation_defined.md I15 "refuse"). Raised by a host turn. Safe
  (log 8). -/
  | outsideWindow
  deriving DecidableEq, Repr

/-- The outcome of a step of this machine. -/
abbrev Result := Host.Outcome State Fault Refusal

end Sys2Proof.Machine
end

