-- ==== Sys2Proof/Machine/Ops.lean ====
section
/-! DEFINITION. The named operations over the register files and the registers, the completion of a command
(20_memory.md R58), the taking of an error (60_exceptions.md R202, R205) and the return from one (R206), and the
reset of the block (70_reset_and_hazards.md R251). -/

namespace Sys2Proof.Machine

/-! ## Register files -/

/-- What an index that nothing is listed for reads as: the reset contents of every file (R24 to R27). -/
def Memory.unlisted : Byte := 0x00#8

/-- Read one entry (R11 `C[i]`). -/
def Memory.read : Memory → Nat → Byte
  | [], _ => Memory.unlisted
  | (b, v) :: m, a => if b = a then v else Memory.read m a

/-- Drop what is listed for an index. -/
def Memory.erase : Memory → Nat → Memory
  | [], _ => []
  | (b, v) :: m, a => if b = a then Memory.erase m a else (b, v) :: Memory.erase m a

/-- Put an entry before the first listed one with a larger index. -/
def Memory.insert : Memory → Nat → Byte → Memory
  | [], a, v => [(a, v)]
  | (b, u) :: m, a, v => if a < b then (a, v) :: (b, u) :: m else (b, u) :: Memory.insert m a v

/-- Write one entry (R11 `C[i] <- v`). Writing what an unlisted index reads as leaves nothing listed for it. -/
def Memory.write (m : Memory) (a : Nat) (v : Byte) : Memory :=
  if v = Memory.unlisted then Memory.erase m a else Memory.insert (Memory.erase m a) a v

/-- Write consecutive entries from index a on. -/
def Memory.writeFrom (m : Memory) (a : Nat) : List Byte → Memory
  | [] => m
  | v :: vs => Memory.writeFrom (Memory.write m a v) (a + 1) vs

/-- The first n entries, in order. -/
def Memory.take (m : Memory) (n : Nat) : List Byte := (List.range n).map (Memory.read m)

/-- The canonical form: indexes strictly rising from `low` on, none at or above `size`, and none listed that
reads as an unlisted one does. -/
def Memory.wfFrom (low size : Nat) : Memory → Bool
  | [] => true
  | (a, v) :: m => decide (low ≤ a ∧ a < size) && v != Memory.unlisted && Memory.wfFrom (a + 1) size m

/-- The file is in canonical form and holds entries 0..size-1 only (log 19). -/
def Memory.wf (size : Nat) (m : Memory) : Bool := Memory.wfFrom 0 size m

/-! ## Registers -/

/-- `R <- v` (R11, R21). -/
def State.setR (s : State) (v : Byte) : State := { s with r := v }

/-- `T <- v` (R22). -/
def State.setT (s : State) (v : Byte) : State := { s with t := v }

/-- `K <- v` (R23). -/
def State.setK (s : State) (v : Byte) : State := { s with k := v }

/-- `WVALID <- v` (R28). -/
def State.setWvalid (s : State) (v : Bool) : State := { s with wvalid := v }

/-- Replace the coefficient file (R24). -/
def State.setC (s : State) (m : Memory) : State := { s with c := m }

/-- Replace the identifier file (R25). -/
def State.setX (s : State) (m : Memory) : State := { s with x := m }

/-- Replace the value file (R26). -/
def State.setY (s : State) (m : Memory) : State := { s with y := m }

/-- Replace the weight file (R27). -/
def State.setW (s : State) (m : Memory) : State := { s with w := m }

/-- Replace the pending command word; none is BUSY <- 0 (R33). -/
def State.setPending (s : State) (p : Option Word) : State := { s with pending := p }

/-- `DONE <- v` (R33). -/
def State.setDone (s : State) (v : Bool) : State := { s with done := v }

/-- Replace the error record (R35). -/
def State.setErr (s : State) (e : ErrorRecord) : State := { s with err := e }

/-- Replace the turns to come. -/
def State.setAgenda (s : State) (ts : List Turn) : State := { s with agenda := ts }

/-! ## Errors -/

/-- The errors of R201 that are raised. -/
inductive ErrorKind where
  | fieldDivZero
  | duplicateId
  | invalidThreshold
  | invalidShareCount
  | zeroId
  | logZero
  | indexRange
  | weightsStale
  | illegalCmd
  | cmdOverrun
  deriving DecidableEq, Repr

/-- The CODE of an error (R201). -/
def ErrorKind.code : ErrorKind → Byte
  | .fieldDivZero => 0x01#8
  | .duplicateId => 0x02#8
  | .invalidThreshold => 0x03#8
  | .invalidShareCount => 0x04#8
  | .zeroId => 0x05#8
  | .logZero => 0x06#8
  | .indexRange => 0x07#8
  | .weightsStale => 0x08#8
  | .illegalCmd => 0x09#8
  | .cmdOverrun => 0x0A#8

/-- An error is pending (R35). -/
def ErrorRecord.isPending (e : ErrorRecord) : Bool := e.code != 0x00#8

/-- `record(c, o, n)` of R202: the first error is kept, later ones set MULTI. -/
def ErrorRecord.record (e : ErrorRecord) (kind : ErrorKind) (opc info : Byte) : ErrorRecord :=
  if e.code = 0x00#8 then { code := kind.code, opc := opc, info := info, multi := false }
  else { e with multi := true }

/-- A command word dropped because an error is pending: MULTI <- 1 and nothing else (R203). -/
def ErrorRecord.markMulti (e : ErrorRecord) : ErrorRecord := { e with multi := true }

/-- TAKING AN ERROR: the completion of a command that raises. It records the error, BUSY <- 0, and does nothing
else: no write phase, DONE unchanged (R202, R205). -/
def State.raise (s : State) (opc : Byte) (kind : ErrorKind) (info : Byte) : State :=
  (s.setErr (s.err.record kind opc info)).setPending none

/-- THE RETURN from an error: CTRL.ERR_CLR sets CODE, OPC, INFO and MULTI to 0 (R39, R206). -/
def State.clearError (s : State) : State := s.setErr ErrorRecord.clear

/-! ## Completion -/

/-- The end of a successful command: BUSY <- 0 and DONE <- 1, in the step of the write phase (R58). -/
def State.complete (s : State) : State := (s.setDone true).setPending none

/-- Complete with a write phase already made. -/
def succeed (s : State) : Result := .next s.complete

/-- Complete with a write phase that needs a value from the tables. A configuration that R8 calls ill formed may
not have it, and is no machine of the spec: a fault (DESIGN CHOICE, safe, log 7). -/
def succeedWith {α : Type} (value : Option α) (write : α → State) : Result :=
  match value with
  | some v => succeed (write v)
  | none => .fault .noTableValue

/-- Complete by raising an error (R202). -/
def fail (s : State) (opc : Byte) (kind : ErrorKind) (info : Byte) : Result := .next (s.raise opc kind info)

/-! ## Reset -/

/-- The state of R251 in the configuration the block has. What the host and the reset source do (the turns to
come, the answers given) is no state of the block and stays (DESIGN CHOICE, safe, log 13). -/
def State.resetBlock (s : State) : State :=
  { State.reset with cfg := s.cfg, agenda := s.agenda, replies := s.replies }

/-- The end of the reset sequence: READY <- 1 (R252). -/
def State.becomeReady (s : State) : State := { s with ready := true }

end Sys2Proof.Machine
end

