-- ==== Sys2Proof/Machine/Operands.lean ====
section
/-! DEFINITION. Operand assembly (30_encoding.md R73): the only operand forms are an 8-bit immediate and R. -/

namespace Sys2Proof.Machine

/-- The value of an operand: the immediate as it is, or R as it is at the start of the command (R73). -/
def operandValue (s : State) : Src → Byte
  | .imm v => v
  | .r => s.r

/-- An index or a count as a number; it is neither wrapped nor truncated (20_memory.md R57). -/
def indexOf (i : Byte) : Nat := i.toNat

/-- A number below 256 as an INFO value or a table entry (R201, R30). -/
def byteOf (n : Nat) : Byte := BitVec.ofNat 8 n

end Sys2Proof.Machine
end

