-- ==== Sys2Proof/Machine/Arithmetic.lean ====
section
/-! DEFINITION. The commands of the arithmetic unit (40_field_arithmetic.md R107 to R114). A meaning is the
command's completion: its check phase, then its write phase with BUSY <- 0 and DONE <- 1, or the error record
with BUSY <- 0 (00_scope.md R12, 20_memory.md R58, 60_exceptions.md R202). -/

namespace Sys2Proof.Machine

/-- NOP (R107). -/
def execNop (s : State) : Result := succeed s

/-- ADD a, b: R <- gf_add(a, b) (R108). -/
def execAdd (a b : Src) (s : State) : Result :=
  succeed (s.setR (gfAdd (operandValue s a) (operandValue s b)))

/-- MUL a, b: R <- gf_mul(a, b) (R109). -/
def execMul (a b : Src) (s : State) : Result :=
  succeed (s.setR (gfMul s.cfg (operandValue s a) (operandValue s b)))

/-- DIV a, b: FIELD_DIV_ZERO when b is 0, else R <- gf_div(a, b) (R110). -/
def execDiv (a b : Src) (s : State) : Result :=
  if operandValue s b = 0x00#8 then fail s Opcode.div .fieldDivZero 0x00#8
  else succeedWith (gfDiv s.cfg (operandValue s a) (operandValue s b)) s.setR

/-- INV a: FIELD_DIV_ZERO when a is 0, else R <- gf_inv(a) (R111). -/
def execInv (a : Src) (s : State) : Result :=
  if operandValue s a = 0x00#8 then fail s Opcode.inv .fieldDivZero 0x00#8
  else succeedWith (gfInv s.cfg (operandValue s a)) s.setR

/-- POW a, n: R <- gf_pow(a, n) (R112). -/
def execPow (a n : Src) (s : State) : Result :=
  succeedWith (gfPow s.cfg (operandValue s a) (operandValue s n)) s.setR

/-- LOG a: LOG_ZERO when a is 0, else R <- LOG[a] (R113). -/
def execLog (a : Src) (s : State) : Result :=
  if operandValue s a = 0x00#8 then fail s Opcode.log .logZero 0x00#8
  else succeedWith (logEntry s.cfg (operandValue s a)) (fun i => s.setR (byteOf i))

/-- EXP i: R <- EXP[i] (R114). -/
def execExp (i : Src) (s : State) : Result :=
  succeed (s.setR (expEntry s.cfg (indexOf (operandValue s i))))

end Sys2Proof.Machine
end

