-- ==== Sys2Proof/Machine/Evaluator.lean ====
section
/-! DEFINITION. The commands of the polynomial evaluator (41_polynomial_evaluator.md R130 to R136). -/

namespace Sys2Proof.Machine

/-! ## Functions -/

/-- Horner's loop over C[n-1] down to C[0], from the accumulator `acc` (R130). -/
def hornerFrom (cfg : Config) (c : Memory) (x : Byte) : (n : Nat) → (acc : Byte) → Byte
  | 0, acc => acc
  | n + 1, acc => hornerFrom cfg c x n (gfAdd (gfMul cfg acc x) (Memory.read c n))

/-- horner(T, C, x): the polynomial of the first `n` coefficients at x (R130). -/
def horner (cfg : Config) (n : Nat) (c : Memory) (x : Byte) : Byte := hornerFrom cfg c x n 0x00#8

/-- The smallest index below n whose identifier is 0 (R135). -/
def firstZeroId (n : Nat) (x : Memory) : Option Nat :=
  (List.range n).find? (fun k => Memory.read x k == 0x00#8)

/-- The smallest index below n whose identifier repeats an earlier one (R135). -/
def firstDuplicateId (n : Nat) (x : Memory) : Option Nat :=
  (List.range n).find? (fun k => (List.range k).any (fun j => Memory.read x j == Memory.read x k))

/-- check_ids(K, X): the error and INFO it raises, or none. ZERO_ID comes before DUPLICATE_ID (R135). -/
def checkIds (n : Nat) (x : Memory) : Option (ErrorKind × Byte) :=
  match firstZeroId n x with
  | some k => some (.zeroId, byteOf k)
  | none =>
    match firstDuplicateId n x with
    | some k => some (.duplicateId, byteOf k)
    | none => none

/-! ## Commands -/

/-- SETT #t: INVALID_THRESHOLD(t) unless 2 ≤ t ≤ NC, else T <- t (R131). -/
def execSett (t : Byte) (s : State) : Result :=
  if indexOf t < 2 ∨ s.cfg.nc < indexOf t then fail s Opcode.sett .invalidThreshold t
  else succeed (s.setT t)

/-- WRC #i, v: INDEX_RANGE(i) unless i < NC, else C[i] <- v (R132). -/
def execWrc (i : Byte) (v : Src) (s : State) : Result :=
  if s.cfg.nc ≤ indexOf i then fail s Opcode.wrc .indexRange i
  else succeed (s.setC (Memory.write s.c (indexOf i) (operandValue s v)))

/-- RDC #i: INDEX_RANGE(i) unless i < NC, else R <- C[i] (R133). -/
def execRdc (i : Byte) (s : State) : Result :=
  if s.cfg.nc ≤ indexOf i then fail s Opcode.rdc .indexRange i
  else succeed (s.setR (Memory.read s.c (indexOf i)))

/-- EVAL x: INVALID_THRESHOLD(T) when T < 2, ZERO_ID when x is 0, else R <- horner(T, C, x) (R134). -/
def execEval (x : Src) (s : State) : Result :=
  if indexOf s.t < 2 then fail s Opcode.eval .invalidThreshold s.t
  else if operandValue s x = 0x00#8 then fail s Opcode.eval .zeroId 0x00#8
  else succeed (s.setR (horner s.cfg (indexOf s.t) s.c (operandValue s x)))

/-- The values EVALX writes to Y[0..K-1] (R136). -/
def shareValues (s : State) : List Byte :=
  (Memory.take s.x (indexOf s.k)).map (horner s.cfg (indexOf s.t) s.c)

/-- EVALX: the checks of R136 in their order, then Y[k] <- horner(T, C, X[k]) for k in 0..K-1. -/
def execEvalx (s : State) : Result :=
  if indexOf s.t < 2 then fail s Opcode.evalx .invalidThreshold s.t
  else if indexOf s.k < 2 then fail s Opcode.evalx .invalidShareCount s.k
  else if indexOf s.k < indexOf s.t then fail s Opcode.evalx .invalidThreshold s.t
  else
    match checkIds (indexOf s.k) s.x with
    | some (kind, info) => fail s Opcode.evalx kind info
    | none => succeed (s.setY (Memory.writeFrom s.y 0 (shareValues s)))

end Sys2Proof.Machine
end

