-- ==== Sys2Proof/Machine/Housekeeping.lean ====
section
/-! DEFINITION. The housekeeping command (43_housekeeping.md R180). -/

namespace Sys2Proof.Machine

/-- A file with every entry 0x00. -/
def Memory.zeroed : Memory := []

/-- ZERO: every entry of C, X, Y and W, and R and WVALID, to 0; T, K, the error record and CTRL stay (R180). -/
def execZero (s : State) : Result :=
  succeed ((((((s.setC Memory.zeroed).setX Memory.zeroed).setY Memory.zeroed).setW Memory.zeroed).setR
    0x00#8).setWvalid false)

end Sys2Proof.Machine
end

