-- ==== Sys2Proof/Machine/Interpolator.lean ====
section
/-! DEFINITION. The commands of the Lagrange interpolator (42_lagrange_interpolator.md R150 to R160). -/

namespace Sys2Proof.Machine

/-! ## Functions -/

/-- One factor of lag_w: multiply by X[j] / (X[j] ⊕ X[k]) when j ≠ k (R150). -/
def lagFactor (cfg : Config) (x : Memory) (k : Nat) (acc : Byte) (j : Nat) : Option Byte :=
  if j = k then some acc
  else (gfDiv cfg (Memory.read x j) (gfAdd (Memory.read x j) (Memory.read x k))).map (gfMul cfg acc)

/-- lag_w(K, X, k): the weight at 0 of point k of the first n points (R150). It has no value when a divisor
is 0. -/
def lagW (cfg : Config) (n : Nat) (x : Memory) (k : Nat) : Option Byte :=
  (List.range n).foldlM (lagFactor cfg x k) 0x01#8

/-- The weights of the first n points (R158). -/
def lagWeights (cfg : Config) (n : Nat) (x : Memory) : Option (List Byte) :=
  (List.range n).mapM (lagW cfg n x)

/-- lag_comb(K, Y, W) (R151). -/
def lagComb (cfg : Config) (n : Nat) (y w : Memory) : Byte :=
  (List.range n).foldl (fun acc k => gfAdd acc (gfMul cfg (Memory.read y k) (Memory.read w k))) 0x00#8

/-! ## Configuration and file access -/

/-- SETK #k: INVALID_SHARE_COUNT(k) unless 2 ≤ k ≤ NP, else K <- k and WVALID <- 0 (R152). -/
def execSetk (k : Byte) (s : State) : Result :=
  if indexOf k < 2 ∨ s.cfg.np < indexOf k then fail s Opcode.setk .invalidShareCount k
  else succeed ((s.setK k).setWvalid false)

/-- WRX #i, v: INDEX_RANGE(i) unless i < NP, else X[i] <- v and WVALID <- 0 (R153). -/
def execWrx (i : Byte) (v : Src) (s : State) : Result :=
  if s.cfg.np ≤ indexOf i then fail s Opcode.wrx .indexRange i
  else succeed ((s.setX (Memory.write s.x (indexOf i) (operandValue s v))).setWvalid false)

/-- WRY #i, v: INDEX_RANGE(i) unless i < NP, else Y[i] <- v (R154). -/
def execWry (i : Byte) (v : Src) (s : State) : Result :=
  if s.cfg.np ≤ indexOf i then fail s Opcode.wry .indexRange i
  else succeed (s.setY (Memory.write s.y (indexOf i) (operandValue s v)))

/-- RDX #i: INDEX_RANGE(i) unless i < NP, else R <- X[i] (R155). -/
def execRdx (i : Byte) (s : State) : Result :=
  if s.cfg.np ≤ indexOf i then fail s Opcode.rdx .indexRange i
  else succeed (s.setR (Memory.read s.x (indexOf i)))

/-- RDY #i: INDEX_RANGE(i) unless i < NP, else R <- Y[i] (R156). -/
def execRdy (i : Byte) (s : State) : Result :=
  if s.cfg.np ≤ indexOf i then fail s Opcode.rdy .indexRange i
  else succeed (s.setR (Memory.read s.y (indexOf i)))

/-- RDW #i: INDEX_RANGE(i) unless i < NP, else R <- W[i], WVALID not checked (R157). -/
def execRdw (i : Byte) (s : State) : Result :=
  if s.cfg.np ≤ indexOf i then fail s Opcode.rdw .indexRange i
  else succeed (s.setR (Memory.read s.w (indexOf i)))

/-! ## Weights and combination -/

/-- The write of the weights that LAGW and INTERP share: W[0..K-1] and WVALID <- 1 (R158, R160). -/
def State.storeWeights (s : State) (ws : List Byte) : State :=
  (s.setW (Memory.writeFrom s.w 0 ws)).setWvalid true

/-- LAGW: the checks of R158, then W[k] <- lag_w(K, X, k) for k in 0..K-1 and WVALID <- 1. -/
def execLagw (s : State) : Result :=
  if indexOf s.k < 2 then fail s Opcode.lagw .invalidShareCount s.k
  else
    match checkIds (indexOf s.k) s.x with
    | some (kind, info) => fail s Opcode.lagw kind info
    | none => succeedWith (lagWeights s.cfg (indexOf s.k) s.x) s.storeWeights

/-- LCOMB: WEIGHTS_STALE when WVALID is 0, else R <- lag_comb(K, Y, W) (R159). -/
def execLcomb (s : State) : Result :=
  if s.wvalid = false then fail s Opcode.lcomb .weightsStale 0x00#8
  else succeed (s.setR (lagComb s.cfg (indexOf s.k) s.y s.w))

/-- The last write of INTERP: R <- lag_comb(K, Y, W), "W as just written" (R160). -/
def State.combine (s : State) : State := s.setR (lagComb s.cfg (indexOf s.k) s.y s.w)

/-- INTERP: the checks of LAGW, then the writes of LAGW, then R <- lag_comb(K, Y, W) (R160). -/
def execInterp (s : State) : Result :=
  if indexOf s.k < 2 then fail s Opcode.interp .invalidShareCount s.k
  else
    match checkIds (indexOf s.k) s.x with
    | some (kind, info) => fail s Opcode.interp kind info
    | none => succeedWith (lagWeights s.cfg (indexOf s.k) s.x) (fun ws => (s.storeWeights ws).combine)

end Sys2Proof.Machine
end

