-- ==== Sys2Proof/Machine/Dispatch.lean ====
section
/-! DEFINITION. The meaning of each command: the completion step of the engine (20_memory.md R58). -/

namespace Sys2Proof.Machine

def exec (i : Instr) (s : State) : Host.Outcome State Fault Refusal :=
  match i with
  | .nop => Sys2Proof.Machine.execNop s
  | .add a b => Sys2Proof.Machine.execAdd a b s
  | .mul a b => Sys2Proof.Machine.execMul a b s
  | .div a b => Sys2Proof.Machine.execDiv a b s
  | .inv a => Sys2Proof.Machine.execInv a s
  | .pow a n => Sys2Proof.Machine.execPow a n s
  | .log a => Sys2Proof.Machine.execLog a s
  | .exp a => Sys2Proof.Machine.execExp a s
  | .sett t => Sys2Proof.Machine.execSett t s
  | .wrc n v => Sys2Proof.Machine.execWrc n v s
  | .rdc n => Sys2Proof.Machine.execRdc n s
  | .eval x => Sys2Proof.Machine.execEval x s
  | .evalx => Sys2Proof.Machine.execEvalx s
  | .setk k => Sys2Proof.Machine.execSetk k s
  | .wrx n v => Sys2Proof.Machine.execWrx n v s
  | .wry n v => Sys2Proof.Machine.execWry n v s
  | .rdx n => Sys2Proof.Machine.execRdx n s
  | .rdy n => Sys2Proof.Machine.execRdy n s
  | .rdw n => Sys2Proof.Machine.execRdw n s
  | .lagw => Sys2Proof.Machine.execLagw s
  | .lcomb => Sys2Proof.Machine.execLcomb s
  | .interp => Sys2Proof.Machine.execInterp s
  | .zero => Sys2Proof.Machine.execZero s

end Sys2Proof.Machine
end

