-- ==== Sys2Proof/Machine/Flags.lean ====
section
/-! DEFINITION. The status bits, the interrupt line, and the words the window's registers read. The block has no
arithmetic flags (10_state.md R46): READY, BUSY, DONE, ERR and WVALID are all there is. -/

namespace Sys2Proof.Machine

/-- STATUS (R40): READY, BUSY, DONE, ERR, WVALID in bits 0 to 4. -/
def State.statusWord (s : State) : Word :=
  0#27 ++ BitVec.ofBool s.wvalid ++ BitVec.ofBool s.err.isPending ++ BitVec.ofBool s.done ++
    BitVec.ofBool s.busy ++ BitVec.ofBool s.ready

/-- ID, constant (R37). -/
def idWord : Word := 0x47463801#32

/-- PARAM: POLY[7:0], GEN, NP, NC from the top byte down (R38). -/
def paramWord (cfg : Config) : Word :=
  cfg.poly.extractLsb' 0 8 ++ cfg.gen ++ BitVec.ofNat 8 cfg.np ++ BitVec.ofNat 8 cfg.nc

/-- CTRL reads the two enables; the action bits and the reserved bits read 0 (R39). -/
def State.ctrlWord (s : State) : Word := 0#30 ++ BitVec.ofBool s.ieErr ++ BitVec.ofBool s.ieDone

/-- RESULT (R42). -/
def State.resultWord (s : State) : Word := 0#24 ++ s.r

/-- ERR (R43). -/
def State.errWord (s : State) : Word :=
  BitVec.ofBool s.err.multi ++ 0#7 ++ s.err.info ++ s.err.opc ++ s.err.code

/-- CFG (R44). -/
def State.cfgWord (s : State) : Word := 0#16 ++ s.k ++ s.t

/-- The interrupt output, a level (R207). -/
def State.irq (s : State) : Bool := (s.ieDone && s.done) || (s.ieErr && s.err.isPending)

end Sys2Proof.Machine
end

