-- ==== Sys2Proof/Machine/Window.lean ====
section
/-! DEFINITION. Host accesses to the register window (10_state.md R36 to R45, 20_memory.md R50 to R56) and the
acceptance of a command (60_exceptions.md R203). -/

namespace Sys2Proof.Machine

/-! ## Addresses -/

/-- The offset in the window of a platform address, none outside BASE+0x00 to BASE+0x3F (R51). -/
def windowOffset (addr : Nat) : Option Nat :=
  if Config.base ≤ addr ∧ addr < Config.base + 64 then some (addr - Config.base) else none

/-- The number of bytes of an access (R52, R53). -/
def Size.bytes : Size → Nat
  | .byte => 1
  | .half => 2
  | .word => 4

/-- The offset is a multiple of the size: natural alignment (R53, R54; 90_conflicts.md C11). -/
def aligned (size : Size) (off : Nat) : Bool := off % size.bytes == 0

/-! ## Reads -/

/-- The register at a word offset (R36). CMD reads 0 (R41), and so does a reserved offset (R45). -/
def State.readRegister (s : State) (off : Nat) : Word :=
  match off with
  | 0x00 => idWord
  | 0x04 => paramWord s.cfg
  | 0x08 => s.ctrlWord
  | 0x0C => s.statusWord
  | 0x14 => s.resultWord
  | 0x18 => s.errWord
  | 0x1C => s.cfgWord
  | _ => 0#32

/-- The low bytes of a word, as many as the access has, zero-extended. -/
def lowBytes (size : Size) (w : Word) : Word :=
  match size with
  | .byte => (w.extractLsb' 0 8).setWidth 32
  | .half => (w.extractLsb' 0 16).setWidth 32
  | .word => w

/-- What a read at an offset returns: the addressed lanes of the register (R53, R55), or 0 when misaligned (R54).
The value returned has the lowest addressed byte in bits 7:0 (DEDUCED from 95_test_vectors.md V7-2, safe,
log 4). -/
def State.readAt (s : State) (size : Size) (off : Nat) : Word :=
  if aligned size off then lowBytes size (s.readRegister (off - off % 4) >>> (8 * (off % 4))) else 0#32

/-- A host read: it returns a value and has no side effect (R52, R56). -/
def State.hostRead (s : State) (size : Size) (off : Nat) : State :=
  { s with replies := s.replies ++ [s.readAt size off] }

/-! ## Writes -/

/-- CTRL step 1: store the enables (R39). -/
def State.setEnables (s : State) (v : Word) : State := { s with ieDone := v.getLsbD 0, ieErr := v.getLsbD 1 }

/-- Apply an action of CTRL when its bit is 1; "Writing 0 to an action bit does nothing" (R39). -/
def onBit (bit : Bool) (action : State → State) (s : State) : State := if bit then action s else s

/-- A write to CTRL, its four effects in the order of R39: enables, ERR_CLR, DONE_CLR, SRST. -/
def State.writeCtrl (s : State) (v : Word) : State :=
  onBit (v.getLsbD 16) State.resetBlock
    (onBit (v.getLsbD 9) (fun u => u.setDone false)
      (onBit (v.getLsbD 8) State.clearError (s.setEnables v)))

/-- A write to CMD: drop the word with CMD_OVERRUN, drop it because an error is pending, or accept it (R203). -/
def State.offerCommand (s : State) (v : Word) : State :=
  if s.ready = false ∨ s.busy = true then s.setErr (s.err.record .cmdOverrun (v.extractLsb' 24 8) 0x00#8)
  else if s.err.isPending then s.setErr s.err.markMulti
  else s.setPending (some v)

/-- The write effect of the register at a word offset. Only CTRL and CMD have one (R36, R45, R52). -/
def State.writeRegister (s : State) (off : Nat) (v : Word) : State :=
  match off with
  | 0x08 => s.writeCtrl v
  | 0x10 => s.offerCommand v
  | _ => s

/-- A host write. Only an aligned 32-bit write with every byte strobe set takes effect (R52, R53, R54). -/
def State.hostWrite (s : State) (size : Size) (off : Nat) (strobes : BitVec 4) (v : Word) : State :=
  if size = .word ∧ aligned size off = true ∧ strobes = 0xF#4 then s.writeRegister off v else s

/-! ## The host's step -/

/-- One host access (R52). Outside the window the access is not the block's (R51): refused by name (log 8). -/
def hostAccess (access : Access) (s : State) : Result :=
  match access with
  | .read size addr =>
    match windowOffset addr with
    | some off => .next (s.hostRead size off)
    | none => .refused .outsideWindow
  | .write size addr strobes data =>
    match windowOffset addr with
    | some off => .next (s.hostWrite size off strobes data)
    | none => .refused .outsideWindow

end Sys2Proof.Machine
end

