-- ==== Sys2Proof/Machine/Engine.lean ====
section
/-! DEFINITION. The steps of the three agents (00_scope.md R7). -/

namespace Sys2Proof.Machine

/-- Complete a pending word: an illegal one raises ILLEGAL_CMD with INFO 0x00 and OPC w[31:24] (R76, R204), a
command has its meaning. -/
def completeWord (w : Word) (s : State) : Result :=
  match decodeWord w with
  | .ok i => exec i s
  | .error _ => fail s (w.extractLsb' 24 8) .illegalCmd 0x00#8

/-- A step of the engine: end the reset sequence (R252; log 14), complete the accepted command (R203), or be idle,
"While BUSY = 0 it is idle and keeps all state" (R210; log 15). -/
def engineStep (s : State) : Result :=
  if s.ready = false then .next s.becomeReady
  else
    match s.pending with
    | some w => completeWord w s
    | none => .next s

/-- A step of the reset source: the hard reset has the same effect as the soft one (R250). -/
def resetStep (s : State) : Result := .next s.resetBlock

/-- The agent whose turn it is takes it. With no turn planned the engine has it (R262; DESIGN CHOICE, safe,
log 2). -/
def takeTurn (s : State) : Result :=
  match s.agenda with
  | [] => engineStep s
  | .engine :: rest => engineStep (s.setAgenda rest)
  | .reset :: rest => resetStep (s.setAgenda rest)
  | .host access :: rest => hostAccess access (s.setAgenda rest)

/-- The state in which the engine's next step completes the word w: the block has ended its reset sequence, has
accepted w (R203), and it is the engine's turn. -/
def State.withPendingWord (s : State) (w : Word) : State :=
  { s with ready := true, pending := some w, agenda := .engine :: s.agenda }

end Sys2Proof.Machine
end

