-- ==== Sys2Proof/Machine/Step.lean ====
section
/-! DEFINITION. One step of the machine, and where its next command is placed. -/

namespace Sys2Proof.Machine

/-- One step: the agent whose turn it is takes it (00_scope.md R7). -/
def step (s : State) : Host.Outcome State Fault Refusal := takeTurn s

/-- The state with a command word accepted and the engine about to complete it. The block fetches nothing (R61): a
command comes to the engine by a CMD write that is accepted (R203), and this stands for that acceptance
(log 11). -/
def State.withFetchWord (s : State) (nbits w : Nat) : State := s.withPendingWord (tableWord nbits w)

end Sys2Proof.Machine
end

