-- ==== Sys2Proof/Machine/Assembler.lean ====
section
/-! DEFINITION. The assembler's reading of one line (30_encoding.md R79) and the pseudo-instructions (R80). A line is
a list of characters. The grammar does not speak of blanks; they are skipped between tokens, as its example
`MUL R, #0x83` needs (DEDUCED, safe, log 12). -/

namespace Sys2Proof.Machine

/-! ## Pseudo-instructions -/

/-- The pseudo-instructions of R80. -/
inductive Pseudo where
  | li (v : Byte)
  | sub (a b : Src)
  | sqr (a : Src)
  | clrr
  | stc (i : Byte)
  deriving DecidableEq, Repr

/-- The expansion of a pseudo-instruction (R80). -/
def Pseudo.expand : Pseudo → Instr
  | .li v => .add (.imm v) (.imm 0x00#8)
  | .sub a b => .add a b
  | .sqr a => .mul a a
  | .clrr => .add (.imm 0x00#8) (.imm 0x00#8)
  | .stc i => .wrc i .r

/-! ## Tokens -/

/-- A blank between tokens. -/
def isBlank (ch : Char) : Bool := ch == ' ' || ch == '\t'

/-- Drop leading blanks. -/
def skipBlanks (cs : List Char) : List Char := cs.dropWhile isBlank

/-- A decimal digit's value. -/
def decimalDigit (ch : Char) : Option Nat :=
  if '0' ≤ ch ∧ ch ≤ '9' then some (ch.toNat - '0'.toNat) else none

/-- A hexadecimal digit's value. -/
def hexDigit (ch : Char) : Option Nat :=
  if 'A' ≤ ch ∧ ch ≤ 'F' then some (ch.toNat - 'A'.toNat + 10)
  else if 'a' ≤ ch ∧ ch ≤ 'f' then some (ch.toNat - 'a'.toNat + 10)
  else decimalDigit ch

/-- Read decimal digits after a first one of value `acc`. -/
def readDecimal (acc : Nat) : List Char → Nat × List Char
  | [] => (acc, [])
  | ch :: cs =>
    match decimalDigit ch with
    | some d => readDecimal (10 * acc + d) cs
    | none => (acc, ch :: cs)

/-- Read `imm8`: "0x" and two hexadecimal digits, or a decimal in 0..255 (R79). -/
def readImm8 : List Char → Option (Byte × List Char)
  | '0' :: 'x' :: h :: l :: cs =>
    match hexDigit h, hexDigit l with
    | some hi, some lo => some (BitVec.ofNat 8 (16 * hi + lo), cs)
    | _, _ => none
  | ch :: cs =>
    match decimalDigit ch with
    | some d =>
      match readDecimal d cs with
      | (n, rest) => if n ≤ 255 then some (BitVec.ofNat 8 n, rest) else none
    | none => none
  | [] => none

/-- Read an operand: "#" and an imm8, or "R" (R79). -/
def readOperand : List Char → Option (Src × List Char)
  | '#' :: cs => (readImm8 cs).map (fun p => (.imm p.1, p.2))
  | 'R' :: cs => some (.r, cs)
  | _ => none

/-- Read the operands of a line to its end: none, one, or two with a comma between them (R79). -/
def readOperands (cs : List Char) : Option (List Src) :=
  if skipBlanks cs = [] then some []
  else
    match readOperand (skipBlanks cs) with
    | none => none
    | some (a, rest) =>
      match skipBlanks rest with
      | [] => some [a]
      | ',' :: more =>
        match readOperand (skipBlanks more) with
        | none => none
        | some (b, final) => if skipBlanks final = [] then some [a, b] else none
      | _ => none

/-! ## Lines -/

/-- The mnemonics of the arithmetic unit (R75). -/
def arithmeticNames : List (String × Byte) :=
  [ ("NOP", Opcode.nop), ("ADD", Opcode.add), ("MUL", Opcode.mul), ("DIV", Opcode.div), ("INV", Opcode.inv),
    ("POW", Opcode.pow), ("LOG", Opcode.log), ("EXP", Opcode.exp) ]

/-- The mnemonics of the polynomial evaluator (R75). -/
def evaluatorNames : List (String × Byte) :=
  [ ("SETT", Opcode.sett), ("WRC", Opcode.wrc), ("RDC", Opcode.rdc), ("EVAL", Opcode.eval),
    ("EVALX", Opcode.evalx) ]

/-- The mnemonics of the Lagrange interpolator (R75). -/
def interpolatorNames : List (String × Byte) :=
  [ ("SETK", Opcode.setk), ("WRX", Opcode.wrx), ("WRY", Opcode.wry), ("RDX", Opcode.rdx), ("RDY", Opcode.rdy),
    ("RDW", Opcode.rdw), ("LAGW", Opcode.lagw), ("LCOMB", Opcode.lcomb), ("INTERP", Opcode.interp) ]

/-- The mnemonics with their opcodes (R75). -/
def mnemonics : List (String × Byte) :=
  arithmeticNames ++ evaluatorNames ++ interpolatorNames ++ [("ZERO", Opcode.zero)]

/-- Complete a command with the operands written, where its shape takes them (R74, R79). -/
def applyForm : Form → List Src → Option Instr
  | .none i, [] => some i
  | .ab mk, [a, b] => some (mk a b)
  | .a mk, [a] => some (mk a)
  | .n mk, [.imm n] => some (mk n)
  | .iv mk, [.imm i, v] => some (mk i v)
  | _, _ => none

/-- A pseudo-instruction from its name and operands (R80). -/
def readPseudo (name : List Char) (operands : List Src) : Option Pseudo :=
  match operands with
  | [] => if name = "CLRR".toList then some .clrr else none
  | [.imm v] =>
    if name = "LI".toList then some (.li v)
    else if name = "SQR".toList then some (.sqr (.imm v))
    else if name = "STC".toList then some (.stc v)
    else none
  | [.r] => if name = "SQR".toList then some (.sqr .r) else none
  | [a, b] => if name = "SUB".toList then some (.sub a b) else none
  | _ => none

/-- A command from its upper-case mnemonic and operands, pseudo-instructions expanded. -/
def assembleParts (name : List Char) (operands : List Src) : Option Instr :=
  match mnemonics.find? (fun row => row.1.toList == name) with
  | some row => (formOf row.2).bind (fun form => applyForm form operands)
  | none => (readPseudo name operands).map Pseudo.expand

/-- The line without its comment (R79). -/
def withoutComment (line : List Char) : List Char := line.takeWhile (fun ch => ch != ';')

/-- The command a line stands for (R79): mnemonics are accepted in either case. -/
def assembleLine (line : List Char) : Option Instr :=
  let body := skipBlanks (withoutComment line)
  (readOperands (body.dropWhile Char.isAlpha)).bind
    (assembleParts ((body.takeWhile Char.isAlpha).map Char.toUpper))

end Sys2Proof.Machine
end

