-- ==== Sys2Proof/Safety.lean ====
section
/-! DEFINITION. The terms that statements are made in: what a successful completion and a raising one leave, the
invariant of the machine, and the end of a run. -/

namespace Sys2Proof.Machine

/-! ## What a completion leaves -/

/-- What no command touches: the configuration, READY, the enables of CTRL, the turns to come and the answers the
host has had. -/
def SameShell (s t : State) : Prop :=
  t.cfg = s.cfg ∧ t.ready = s.ready ∧ t.ieDone = s.ieDone ∧ t.ieErr = s.ieErr ∧ t.agenda = s.agenda ∧
    t.replies = s.replies

/-- T and K are as they were. -/
def SameCounts (s t : State) : Prop := t.t = s.t ∧ t.k = s.k

/-- The four register files and WVALID are as they were. -/
def SameFiles (s t : State) : Prop :=
  t.c = s.c ∧ t.x = s.x ∧ t.y = s.y ∧ t.w = s.w ∧ t.wvalid = s.wvalid

/-- A command has completed without error (R58): BUSY <- 0, DONE <- 1, the error record as it was, and nothing
outside the reach of commands changed. -/
def Completed (s t : State) : Prop :=
  t.pending = none ∧ t.done = true ∧ t.err = s.err ∧ SameShell s t

/-- A command has completed without error and has written no register but R. -/
def OnlyResult (s t : State) : Prop := Completed s t ∧ SameCounts s t ∧ SameFiles s t

/-- A command has completed by raising an error (R202, R205): from `s` only BUSY and the error record change,
and the record keeps the first error. -/
def RaisedFrom (s t : State) (kind : ErrorKind) (opc info : Byte) : Prop :=
  t = { s with
    pending := none
    err :=
      if s.err.code = 0x00#8 then { code := kind.code, opc := opc, info := info, multi := false }
      else { code := s.err.code, opc := s.err.opc, info := s.err.info, multi := true } }

/-! ## Products and polynomials -/

/-- The field product of a list of elements, the empty product 0x01. -/
def gfProduct (cfg : Config) (vs : List Byte) : Byte := vs.foldl (gfMul cfg) 0x01#8

/-- The field sum of a list of elements, the empty sum 0x00. -/
def gfSum (vs : List Byte) : Byte := vs.foldl gfAdd 0x00#8

/-- A bit string as a polynomial over GF(2), bit i the coefficient of x^i (R101). -/
noncomputable def toPoly {n : Nat} (v : BitVec n) : Polynomial (ZMod 2) :=
  ∑ i ∈ Finset.range n, if v.getLsbD i then Polynomial.X ^ i else 0

/-- The indexes below n other than k, as `for j in 0..K-1: if j != k` visits them (R150). -/
def othersBelow (n k : Nat) : List Nat := (List.range n).filter (fun j => j != k)

/-! ## Illegal words -/

/-- The first of the six conditions of R76 that holds, in their order, none for a legal word. -/
def firstIllegal (f : Fields) : Option DecodeError :=
  if f.opcodeOk = false then some .undefinedOpcode
  else if f.rsvOk = false then some .reservedBits
  else if f.saOk = false then some .saNotAllowed
  else if f.sbOk = false then some .sbNotAllowed
  else if f.unusedAOk = false then some .unusedA
  else if f.unusedBOk = false then some .unusedB
  else none

/-! ## Accesses and turns -/

/-- The access takes effect as a CTRL write (R36, R39, R52): an aligned 32-bit write with every strobe set. -/
def Turn.ctrlWrite (v : Word) : Turn := .host (.write .word (Config.base + 0x08) 0xF#4 v)

/-- The access takes effect as a CMD write (R36, R41, R52). -/
def Turn.cmdWrite (v : Word) : Turn := .host (.write .word (Config.base + 0x10) 0xF#4 v)

/-! ## The invariant -/

/-- What holds in every state a block can be in. -/
structure BlockInv (s : State) : Prop where
  /-- The configuration is one R8 calls well formed. -/
  config : configOk s.cfg = true
  /-- T is 0 or in 2..NC (R22). -/
  threshold : s.t = 0x00#8 ∨ (2 ≤ s.t.toNat ∧ s.t.toNat ≤ s.cfg.nc)
  /-- K is 0 or in 2..NP (R23). -/
  count : s.k = 0x00#8 ∨ (2 ≤ s.k.toNat ∧ s.k.toNat ≤ s.cfg.np)
  /-- The files are in canonical form and have their sizes (R24 to R27). -/
  files : Memory.wf s.cfg.nc s.c ∧ Memory.wf s.cfg.np s.x ∧ Memory.wf s.cfg.np s.y ∧ Memory.wf s.cfg.np s.w
  /-- WVALID means "W[0..K-1] are the Lagrange weights of the current X[0..K-1] and K" (R28), with K ≥ 2 and
  valid identifiers (R159). -/
  weights : s.wvalid = true → 2 ≤ s.k.toNat ∧ checkIds s.k.toNat s.x = none ∧
    lagWeights s.cfg s.k.toNat s.x = some (Memory.take s.w s.k.toNat)
  /-- CODE is one of the codes of R201; 0x0B to 0xFF are "never raised". -/
  errorCode : s.err.code.toNat ≤ 0x0A
  /-- With no error pending the record is all 0 (R35, R202). -/
  errorClear : s.err.code = 0x00#8 → s.err = ErrorRecord.clear
  /-- Until the reset sequence ends, no command is pending and the data are at their reset values (R251, R253). -/
  starting : s.ready = false → s.pending = none ∧ s.done = false ∧ s.r = 0x00#8 ∧ s.t = 0x00#8 ∧
    s.k = 0x00#8 ∧ s.c = [] ∧ s.x = [] ∧ s.y = [] ∧ s.w = [] ∧ s.wvalid = false

/-! ## Runs -/

/-- The platform address of an access. -/
def Access.addr : Access → Nat
  | .read _ addr => addr
  | .write _ addr _ _ => addr

/-- The access reaches the block (R51). -/
def Access.InWindow (access : Access) : Prop := Config.base ≤ access.addr ∧ access.addr < Config.base + 64

/-- A turn in which the host reads. -/
def Turn.isRead : Turn → Bool
  | .host (.read _ _) => true
  | .host (.write _ _ _ _) | .engine | .reset => false

/-- The end of a run (R263): the host has issued its last CMD write, BUSY = 0, and the host has read the results it
needs, which are the first `answers` values its reads return (DESIGN CHOICE, safe, log 20). Any other turn may still
be planned: "THIS DEFINITION DOES NOT SAY: that the host cleared the error record". -/
def EndOfRun (answers : Nat) (s : State) : Prop :=
  (∀ v, Turn.cmdWrite v ∉ s.agenda) ∧ s.busy = false ∧ answers ≤ s.replies.length

/-- The run from a state ends at a state, the final state of R263: the first one at which the three conditions
hold. -/
inductive RunEndsAt (answers : Nat) : State → State → Prop where
  | here {s : State} (ended : EndOfRun answers s) : RunEndsAt answers s s
  | later {s u t : State} (going : ¬ EndOfRun answers s) (next : step s = .next u) (rest : RunEndsAt answers u t) :
    RunEndsAt answers s t

/-- "A claim about a run takes 'CODE = 0 at the end' as a premise when it speaks of results" (R263): the premise, of
the final state. -/
def NoErrorPending (s : State) : Prop := s.err.code = 0x00#8

end Sys2Proof.Machine
end

