-- ==== Sys2Proof/Certificates/Slice0/Obligations.lean ====
section
/-! DEFINITION. The statements for the provers. Each docstring names the rules of spec/ it speaks of. -/

open Sys2Proof Sys2Proof.Machine

/-! ## Encoding -/

/-- R70, R73 to R75, R81: every command, with every operand, decodes from its own bytes, and the bytes after it are
left. -/
def Obligations.EveryCommandDecodesFromItsBytes : Prop :=
  ∀ (i : Instr) (rest : List Byte), decode (encodeBytes i ++ rest) = .ok (i, rest)

/-- R76: the decoder rejects exactly the words for which one of the six conditions holds and names the first one;
233 opcode values are undefined; an illegal pending word raises ILLEGAL_CMD with OPC = w[31:24] and INFO 0x00 and
changes nothing else. -/
def Obligations.IllegalWordsAreRule76 : Prop :=
  (∀ w : Word, (match decodeWord w with | .ok _ => none | .error e => some e) = firstIllegal (Fields.ofWord w)) ∧
  ((List.range 256).filter (fun n => (shapeOf (BitVec.ofNat 8 n)).isNone)).length = 233 ∧
  ∀ (s : State) (w : Word) (rest : List Turn), s.ready = true → s.pending = some w → s.agenda = .engine :: rest →
    firstIllegal (Fields.ofWord w) ≠ none →
    ∃ t, step s = .next t ∧
      RaisedFrom { s with agenda := rest } t .illegalCmd (w.extractLsb' 24 8) 0x00#8

/-- R73, R79: encoding what a legal word decodes to gives the word back, but for a field that R replaces, which is
written 0. -/
def Obligations.LegalWordsReencodeCanonically : Prop :=
  ∀ (f : Fields) (i : Instr), decodeWord f.toWord = .ok i →
    encode i = Fields.toWord
      { f with a := if f.sa then 0x00#8 else f.a, b := if f.sb then 0x00#8 else f.b }

/-- R73: operand a is R when w[16] = 1 and w[15:8] otherwise, operand b is R when w[17] = 1 and w[7:0] otherwise, a
count or an index is w[15:8]; a field that R replaces may hold any value without changing what is decoded. -/
def Obligations.OperandsFollowSelectBits : Prop :=
  (∀ (s : State) (w : Word) (a b : Src),
    (decodeWord w = .ok (.add a b) ∨ decodeWord w = .ok (.mul a b) ∨ decodeWord w = .ok (.div a b) ∨
      decodeWord w = .ok (.pow a b)) →
    operandValue s a = (if w.getLsbD 16 then s.r else w.extractLsb' 8 8) ∧
    operandValue s b = (if w.getLsbD 17 then s.r else w.extractLsb' 0 8)) ∧
  (∀ (s : State) (w : Word) (a : Src),
    (decodeWord w = .ok (.inv a) ∨ decodeWord w = .ok (.log a) ∨ decodeWord w = .ok (.exp a) ∨
      decodeWord w = .ok (.eval a)) →
    operandValue s a = (if w.getLsbD 16 then s.r else w.extractLsb' 8 8)) ∧
  (∀ (w : Word) (n : Byte),
    (decodeWord w = .ok (.sett n) ∨ decodeWord w = .ok (.setk n) ∨ decodeWord w = .ok (.rdc n) ∨
      decodeWord w = .ok (.rdx n) ∨ decodeWord w = .ok (.rdy n) ∨ decodeWord w = .ok (.rdw n)) →
    n = w.extractLsb' 8 8) ∧
  (∀ (s : State) (w : Word) (i : Byte) (v : Src),
    (decodeWord w = .ok (.wrc i v) ∨ decodeWord w = .ok (.wrx i v) ∨ decodeWord w = .ok (.wry i v)) →
    i = w.extractLsb' 8 8 ∧ operandValue s v = (if w.getLsbD 17 then s.r else w.extractLsb' 0 8)) ∧
  (∀ (f : Fields) (v : Byte),
    (f.sa = true → decodeWord (Fields.toWord { f with a := v }) = decodeWord f.toWord) ∧
    (f.sb = true → decodeWord (Fields.toWord { f with b := v }) = decodeWord f.toWord))

/-- 30_encoding.md R70, R73, R75, and the words of 95_test_vectors.md V2 to V5: written-out words decode to the
commands they stand for, one or more of each shape and unit. -/
def Obligations.WrittenWordsDecode : Prop :=
  decodeWord 0x00000000#32 = .ok .nop ∧
  decodeWord 0x02010083#32 = .ok (.mul .r (.imm 0x83#8)) ∧
  decodeWord 0x02020500#32 = .ok (.mul (.imm 0x05#8) .r) ∧
  decodeWord 0x04005300#32 = .ok (.inv (.imm 0x53#8)) ∧
  decodeWord 0x11020000#32 = .ok (.wrc 0x00#8 .r) ∧
  decodeWord 0x13010000#32 = .ok (.eval .r) ∧
  decodeWord 0x20000500#32 = .ok (.setk 0x05#8) ∧
  decodeWord 0x28000000#32 = .ok .interp ∧
  decodeWord 0x30000000#32 = .ok .zero ∧
  decodeWord 0x04000105#32 = .error .unusedB

/-- R80: the pseudo-instructions do what their meaning column says: LI loads v, SUB subtracts, which is field
addition, SQR squares, CLRR clears R, STC stores R in C[i]. -/
def Obligations.PseudoInstructionsMean : Prop :=
  ∀ (s : State) (a b : Src) (v : Byte),
    (∃ t, exec (Pseudo.li v).expand s = .next t ∧ OnlyResult s t ∧ t.r = v) ∧
    (∃ t, exec (Pseudo.sub a b).expand s = .next t ∧ OnlyResult s t ∧
      gfAdd t.r (operandValue s b) = operandValue s a) ∧
    (∃ t, exec (Pseudo.sqr a).expand s = .next t ∧ OnlyResult s t ∧
      t.r = gfMul s.cfg (operandValue s a) (operandValue s a)) ∧
    (∃ t, exec Pseudo.clrr.expand s = .next t ∧ OnlyResult s t ∧ t.r = 0x00#8) ∧
    (v.toNat < s.cfg.nc → ∃ t, exec (Pseudo.stc v).expand s = .next t ∧ Memory.read t.c v.toNat = s.r)

/-! ## The engine's step -/

/-- R203, R58 (60_exceptions.md, 20_memory.md): on the engine's turn, with READY = 1 and a pending word that decodes
to a command, the step is that command's meaning, the turn taken off the agenda. That the engine has the turn when none
is planned is the model's choice (log 2, DESIGN CHOICE). -/
def Obligations.EngineRunsPendingCommand : Prop :=
  ∀ (s : State) (w : Word) (i : Instr) (rest : List Turn),
    s.ready = true → s.pending = some w → decodeWord w = .ok i →
    (s.agenda = [] → step s = exec i s) ∧
    (s.agenda = .engine :: rest → step s = exec i { s with agenda := rest })

/-- The model's own (log 11, DESIGN CHOICE): a word placed by withFetchWord is the command the next step runs, for
every command. -/
def Obligations.PlacedCommandRunsNext : Prop :=
  ∀ (s : State) (i : Instr),
    step (s.withFetchWord 32 (encode i).toNat) = exec i { s with ready := true, pending := some (encode i) }

/-- R252 and R210: an engine step during the reset sequence sets READY and changes nothing else; with READY = 1 and
nothing pending the block keeps all state. That the engine has the turn when none is planned is the model's choice
(log 2). -/
def Obligations.EngineEndsResetOrIdles : Prop :=
  ∀ (s : State) (rest : List Turn),
    (s.ready = false → s.agenda = .engine :: rest → step s = .next { s with ready := true, agenda := rest }) ∧
    (s.ready = false → s.agenda = [] → step s = .next { s with ready := true }) ∧
    (s.ready = true → s.pending = none → s.agenda = .engine :: rest → step s = .next { s with agenda := rest }) ∧
    (s.ready = true → s.pending = none → s.agenda = [] → step s = .next s)

/-! ## Arithmetic commands -/

/-- R107: 0x00000000 is the only legal word of NOP, any other word of OPC 0x00 raises ILLEGAL_CMD, and NOP changes
nothing but DONE (and BUSY, by its completion). -/
def Obligations.NopChangesOnlyDone : Prop :=
  (∀ w : Word, decodeWord w = .ok .nop ↔ w = 0x00000000#32) ∧
  (∀ (s : State) (w : Word), w.extractLsb' 24 8 = 0x00#8 → w ≠ 0x00000000#32 →
    ∃ t, completeWord w s = .next t ∧ RaisedFrom s t .illegalCmd 0x00#8 0x00#8) ∧
  ∀ s : State, exec .nop s = .next { s with done := true, pending := none }

/-- R100, R108: ADD writes the bitwise XOR of its operands to R and nothing else; every element is its own additive
inverse. -/
def Obligations.AddIsBitwiseXor : Prop :=
  (∀ (s : State) (a b : Src), ∃ t, exec (.add a b) s = .next t ∧ OnlyResult s t ∧
    ∀ i < 8, t.r.getLsbD i = ((operandValue s a).getLsbD i != (operandValue s b).getLsbD i)) ∧
  ∀ v : Byte, gfAdd v v = 0x00#8

/-- R101, R109: MUL writes R and nothing else, and the value is the product of the operands as polynomials over GF(2),
reduced modulo POLY, for every POLY of degree 8. -/
def Obligations.MulIsProductModuloPoly : Prop :=
  ∀ (s : State) (a b : Src), ∃ t, exec (.mul a b) s = .next t ∧ OnlyResult s t ∧
    (s.cfg.poly.getLsbD 8 = true →
      toPoly t.r = (toPoly (operandValue s a) * toPoly (operandValue s b)) %ₘ toPoly s.cfg.poly)

/-- R103, R110: for a divisor other than 0, DIV writes R and nothing else, and the value is the unique c with
gf_mul(c, b) = a. Division by 0 has no value. -/
def Obligations.DivIsUniqueQuotient : Prop :=
  (∀ (s : State) (a b : Src), configOk s.cfg = true → operandValue s b ≠ 0x00#8 →
    ∃ t, exec (.div a b) s = .next t ∧ OnlyResult s t ∧
      gfMul s.cfg t.r (operandValue s b) = operandValue s a ∧
      ∀ c, gfMul s.cfg c (operandValue s b) = operandValue s a → c = t.r) ∧
  ∀ (cfg : Config) (a : Byte), gfDiv cfg a 0x00#8 = none

/-- R104, R111: for an operand other than 0, INV writes R and nothing else, and the value is the unique c with
gf_mul(a, c) = 0x01; inverting twice gives the element back. -/
def Obligations.InvIsUniqueInverse : Prop :=
  ∀ (s : State) (a : Src), configOk s.cfg = true → operandValue s a ≠ 0x00#8 →
    ∃ t, exec (.inv a) s = .next t ∧ OnlyResult s t ∧
      gfMul s.cfg (operandValue s a) t.r = 0x01#8 ∧
      (∀ c, gfMul s.cfg (operandValue s a) c = 0x01#8 → c = t.r) ∧
      gfInv s.cfg t.r = some (operandValue s a)

/-- R110, R111, R212: DIV and INV with divisor 0 raise FIELD_DIV_ZERO with INFO 0x00, DIV whatever the dividend. -/
def Obligations.DivisionByZeroRaises : Prop :=
  ∀ (s : State) (a b : Src), operandValue s b = 0x00#8 →
    (∃ t, exec (.div a b) s = .next t ∧ RaisedFrom s t .fieldDivZero 0x03#8 0x00#8) ∧
    (∃ t, exec (.inv b) s = .next t ∧ RaisedFrom s t .fieldDivZero 0x04#8 0x00#8)

/-- R105, R112: POW writes R and nothing else, and the value is the product of n copies of a, the empty product
0x01, for every a and every n in 0..255; so n = 0 gives 0x01 for every a, and a = 0 with n ≥ 1 gives 0x00. -/
def Obligations.PowIsIteratedProduct : Prop :=
  ∀ (s : State) (a n : Src), configOk s.cfg = true →
    ∃ t, exec (.pow a n) s = .next t ∧ OnlyResult s t ∧
      t.r = gfProduct s.cfg (List.replicate (operandValue s n).toNat (operandValue s a)) ∧
      (operandValue s n = 0x00#8 → t.r = 0x01#8) ∧
      (operandValue s a = 0x00#8 → operandValue s n ≠ 0x00#8 → t.r = 0x00#8)

/-- R30, R113: for a nonzero operand LOG writes R and nothing else, and the value is the unique i in 0..254 with
EXP[i] = a; LOG of 0 raises LOG_ZERO with INFO 0x00, and entry 0 of the table has no value. -/
def Obligations.LogIsUniqueExponent : Prop :=
  (∀ (s : State) (a : Src), configOk s.cfg = true → operandValue s a ≠ 0x00#8 →
    ∃ t, exec (.log a) s = .next t ∧ OnlyResult s t ∧
      t.r.toNat ≤ 254 ∧ expEntry s.cfg t.r.toNat = operandValue s a ∧
      ∀ i ≤ 254, expEntry s.cfg i = operandValue s a → i = t.r.toNat) ∧
  (∀ (s : State) (a : Src), operandValue s a = 0x00#8 →
    ∃ t, exec (.log a) s = .next t ∧ RaisedFrom s t .logZero 0x06#8 0x00#8) ∧
  ∀ cfg : Config, logEntry cfg 0x00#8 = none

/-- R29, R114: EXP writes R and nothing else, for every index in 0..255. EXP of 0 and of 255 give 0x01, and EXP of an
index up to 254 gives GEN times what EXP of the index before gives. -/
def Obligations.ExpFollowsTheTable : Prop :=
  ∀ (s : State) (i : Src), ∃ t, exec (.exp i) s = .next t ∧ OnlyResult s t ∧
    (operandValue s i = 0x00#8 ∨ operandValue s i = 0xFF#8 → t.r = 0x01#8) ∧
    ∀ j : Byte, (operandValue s i).toNat = j.toNat + 1 → (operandValue s i).toNat ≤ 254 →
      ∃ u, exec (.exp (.imm j)) s = .next u ∧ t.r = gfMul s.cfg u.r s.cfg.gen

/-- R29: EXP[0] = 0x01, each entry from 1 to 254 is the one before times GEN, EXP[255] = 0x01; in a legal configuration
EXP[0..254] is a permutation of 0x01..0xFF, no entry is 0, and EXP[255] equals GEN^255. -/
def Obligations.ExpTableIsPowersOfGenerator : Prop :=
  ∀ cfg : Config,
    expEntry cfg 0 = 0x01#8 ∧ expEntry cfg 255 = 0x01#8 ∧
    (∀ i, 1 ≤ i → i ≤ 254 → expEntry cfg i = gfMul cfg (expEntry cfg (i - 1)) cfg.gen) ∧
    (configOk cfg = true →
      (∀ i < 256, expEntry cfg i ≠ 0x00#8) ∧
      (∀ a : Byte, a ≠ 0x00#8 → ∃! i, i ≤ 254 ∧ expEntry cfg i = a) ∧
      expEntry cfg 255 = gfMul cfg (expEntry cfg 254) cfg.gen)

/-- R102: in a legal configuration the table form of multiplication equals multiplication, for every a and b. -/
def Obligations.TableFormEqualsProduct : Prop :=
  ∀ (cfg : Config) (a b : Byte), configOk cfg = true → gfMulT cfg a b = some (gfMul cfg a b)

/-- R106, items 1 and 3 to 7: identities and zero, the ring laws, inverses, gf_div(gf_mul(a, b), b) = a,
a^255 = 1, division and exponentiation total on their domains, and division and inversion without a value at
divisor 0. -/
def Obligations.FieldLawsHold : Prop :=
  ∀ cfg : Config, configOk cfg = true →
    (∀ a b c : Byte,
      gfAdd a 0x00#8 = a ∧ gfMul cfg a 0x00#8 = 0x00#8 ∧ gfMul cfg a 0x01#8 = a ∧
      gfAdd a b = gfAdd b a ∧ gfMul cfg a b = gfMul cfg b a ∧
      gfAdd (gfAdd a b) c = gfAdd a (gfAdd b c) ∧ gfMul cfg (gfMul cfg a b) c = gfMul cfg a (gfMul cfg b c) ∧
      gfMul cfg a (gfAdd b c) = gfAdd (gfMul cfg a b) (gfMul cfg a c)) ∧
    (∀ a : Byte, a ≠ 0x00#8 → (∃ q, gfInv cfg a = some q ∧ gfMul cfg a q = 0x01#8) ∧
      gfPow cfg a 0xFF#8 = some 0x01#8) ∧
    (∀ a b : Byte, b ≠ 0x00#8 → gfDiv cfg (gfMul cfg a b) b = some a ∧ (gfDiv cfg a b).isSome = true) ∧
    (∀ a n : Byte, (gfPow cfg a n).isSome = true) ∧
    (∀ a : Byte, gfDiv cfg a 0x00#8 = none) ∧ gfInv cfg 0x00#8 = none

/-- R9: GEN changes only the results of LOG and EXP. Two machines that differ in nothing but a legal GEN do the same
with every other command. -/
def Obligations.GeneratorAffectsOnlyLogAndExp : Prop :=
  ∀ (s t : State) (g : Byte) (i : Instr),
    configOk s.cfg = true → configOk { s.cfg with gen := g } = true →
    (∀ a, i ≠ .log a) → (∀ a, i ≠ .exp a) → exec i s = .next t →
    exec i { s with cfg := { s.cfg with gen := g } } = .next { t with cfg := { s.cfg with gen := g } }

/-! ## Evaluator commands -/

/-- R131: SETT stores a count in 2..NC in T and changes nothing else; any other count raises INVALID_THRESHOLD with
the count as INFO. -/
def Obligations.SettStoresThreshold : Prop :=
  ∀ (s : State) (n : Byte),
    (2 ≤ n.toNat ∧ n.toNat ≤ s.cfg.nc →
      ∃ t, exec (.sett n) s = .next t ∧ Completed s t ∧ t.t = n ∧ t.r = s.r ∧ t.k = s.k ∧ SameFiles s t) ∧
    (n.toNat < 2 ∨ s.cfg.nc < n.toNat →
      ∃ t, exec (.sett n) s = .next t ∧ RaisedFrom s t .invalidThreshold 0x10#8 n)

/-- R132: WRC with an index below NC stores its value in that entry of C, every other entry and all else unchanged;
an index at or above NC raises INDEX_RANGE with the index as INFO. -/
def Obligations.WrcStoresOneCoefficient : Prop :=
  ∀ (s : State) (i : Byte) (v : Src),
    (i.toNat < s.cfg.nc →
      ∃ t, exec (.wrc i v) s = .next t ∧ Completed s t ∧ SameCounts s t ∧ t.r = s.r ∧
        Memory.read t.c i.toNat = operandValue s v ∧ (∀ j, j ≠ i.toNat → Memory.read t.c j = Memory.read s.c j) ∧
        t.x = s.x ∧ t.y = s.y ∧ t.w = s.w ∧ t.wvalid = s.wvalid) ∧
    (s.cfg.nc ≤ i.toNat → ∃ t, exec (.wrc i v) s = .next t ∧ RaisedFrom s t .indexRange 0x11#8 i)

/-- R153, R154: WRX and WRY with an index below NP store their value in that entry of X or Y, every other entry
unchanged; WRX clears WVALID and WRY leaves it; an index at or above NP raises INDEX_RANGE with the index as
INFO. -/
def Obligations.WrxAndWryStoreOneEntry : Prop :=
  ∀ (s : State) (i : Byte) (v : Src),
    (i.toNat < s.cfg.np →
      (∃ t, exec (.wrx i v) s = .next t ∧ Completed s t ∧ SameCounts s t ∧ t.r = s.r ∧
        Memory.read t.x i.toNat = operandValue s v ∧ (∀ j, j ≠ i.toNat → Memory.read t.x j = Memory.read s.x j) ∧
        t.c = s.c ∧ t.y = s.y ∧ t.w = s.w ∧ t.wvalid = false) ∧
      (∃ t, exec (.wry i v) s = .next t ∧ Completed s t ∧ SameCounts s t ∧ t.r = s.r ∧
        Memory.read t.y i.toNat = operandValue s v ∧ (∀ j, j ≠ i.toNat → Memory.read t.y j = Memory.read s.y j) ∧
        t.c = s.c ∧ t.x = s.x ∧ t.w = s.w ∧ t.wvalid = s.wvalid)) ∧
    (s.cfg.np ≤ i.toNat →
      (∃ t, exec (.wrx i v) s = .next t ∧ RaisedFrom s t .indexRange 0x21#8 i) ∧
      (∃ t, exec (.wry i v) s = .next t ∧ RaisedFrom s t .indexRange 0x22#8 i))

/-- R133, R155 to R157: RDC, RDX, RDY and RDW copy one entry of C, X, Y or W to R and change nothing else, RDW
whatever WVALID is; an index out of range raises INDEX_RANGE with the index as INFO. -/
def Obligations.FileReadsReturnOneEntry : Prop :=
  ∀ (s : State) (i : Byte),
    (i.toNat < s.cfg.nc → ∃ t, exec (.rdc i) s = .next t ∧ OnlyResult s t ∧ t.r = Memory.read s.c i.toNat) ∧
    (s.cfg.nc ≤ i.toNat → ∃ t, exec (.rdc i) s = .next t ∧ RaisedFrom s t .indexRange 0x12#8 i) ∧
    (i.toNat < s.cfg.np →
      (∃ t, exec (.rdx i) s = .next t ∧ OnlyResult s t ∧ t.r = Memory.read s.x i.toNat) ∧
      (∃ t, exec (.rdy i) s = .next t ∧ OnlyResult s t ∧ t.r = Memory.read s.y i.toNat) ∧
      (∃ t, exec (.rdw i) s = .next t ∧ OnlyResult s t ∧ t.r = Memory.read s.w i.toNat)) ∧
    (s.cfg.np ≤ i.toNat →
      (∃ t, exec (.rdx i) s = .next t ∧ RaisedFrom s t .indexRange 0x23#8 i) ∧
      (∃ t, exec (.rdy i) s = .next t ∧ RaisedFrom s t .indexRange 0x24#8 i) ∧
      (∃ t, exec (.rdw i) s = .next t ∧ RaisedFrom s t .indexRange 0x25#8 i))

/-- R130, R134: with T set and a point other than 0, EVAL writes R and nothing else, and the value is the sum of
C[i] times x^i for i below T, with x^0 = 0x01, for every POLY of degree 8. -/
def Obligations.EvalIsPowerSum : Prop :=
  ∀ (s : State) (x : Src), 2 ≤ s.t.toNat → operandValue s x ≠ 0x00#8 →
    ∃ t, exec (.eval x) s = .next t ∧ OnlyResult s t ∧
      (s.cfg.poly.getLsbD 8 = true →
        t.r = gfSum ((List.range s.t.toNat).map (fun i =>
          gfMul s.cfg (Memory.read s.c i) (gfProduct s.cfg (List.replicate i (operandValue s x))))))

/-- R134: EVAL with T below 2 raises INVALID_THRESHOLD with T as INFO; with T set and the point 0 it raises ZERO_ID
with INFO 0x00. -/
def Obligations.EvalChecksInOrder : Prop :=
  ∀ (s : State) (x : Src),
    (s.t.toNat < 2 → ∃ t, exec (.eval x) s = .next t ∧ RaisedFrom s t .invalidThreshold 0x13#8 s.t) ∧
    (2 ≤ s.t.toNat → operandValue s x = 0x00#8 →
      ∃ t, exec (.eval x) s = .next t ∧ RaisedFrom s t .zeroId 0x13#8 0x00#8)

/-- R24, R134: entries C[T..NC-1] are ignored by evaluation, and EVAL does not read K, X, Y, W or WVALID: two states
that agree on the configuration, T, C[0..T-1] and the point give the same R. -/
def Obligations.EvalReadsOnlyItsCoefficients : Prop :=
  ∀ (s s' : State) (x : Src), s'.cfg = s.cfg → s'.t = s.t → operandValue s' x = operandValue s x →
    (∀ i < s.t.toNat, Memory.read s'.c i = Memory.read s.c i) →
    2 ≤ s.t.toNat → operandValue s x ≠ 0x00#8 →
    ∃ t t', exec (.eval x) s = .next t ∧ exec (.eval x) s' = .next t' ∧ t'.r = t.r

/-- R135: check_ids reports the smallest index with identifier 0, and only without one the smallest index that repeats
an earlier identifier; it passes exactly when neither exists. -/
def Obligations.IdentifierCheckReportsSmallest : Prop :=
  ∀ (n : Nat) (x : Memory),
    (∀ k < n, Memory.read x k = 0x00#8 → (∀ j < k, Memory.read x j ≠ 0x00#8) →
      checkIds n x = some (.zeroId, BitVec.ofNat 8 k)) ∧
    (∀ k < n, (∀ j < n, Memory.read x j ≠ 0x00#8) → (∃ j < k, Memory.read x j = Memory.read x k) →
      (∀ l < k, ∀ j < l, Memory.read x j ≠ Memory.read x l) →
      checkIds n x = some (.duplicateId, BitVec.ofNat 8 k)) ∧
    ((∀ k < n, Memory.read x k ≠ 0x00#8) → (∀ k < n, ∀ j < k, Memory.read x j ≠ Memory.read x k) →
      checkIds n x = none)

/-- R136: when its checks pass, EVALX writes horner(T, C, X[k]) to Y[k] for k below K and changes nothing else. -/
def Obligations.EvalxWritesShares : Prop :=
  ∀ s : State, 2 ≤ s.t.toNat → 2 ≤ s.k.toNat → s.t.toNat ≤ s.k.toNat → checkIds s.k.toNat s.x = none →
    ∃ t, exec .evalx s = .next t ∧ Completed s t ∧ SameCounts s t ∧ t.r = s.r ∧
      (∀ j < s.k.toNat, Memory.read t.y j = horner s.cfg s.t.toNat s.c (Memory.read s.x j)) ∧
      (∀ j, s.k.toNat ≤ j → Memory.read t.y j = Memory.read s.y j) ∧
      t.c = s.c ∧ t.x = s.x ∧ t.w = s.w ∧ t.wvalid = s.wvalid

/-- R136: the errors of EVALX in their order, each with its INFO. -/
def Obligations.EvalxChecksInOrder : Prop :=
  ∀ s : State,
    (s.t.toNat < 2 → ∃ t, exec .evalx s = .next t ∧ RaisedFrom s t .invalidThreshold 0x14#8 s.t) ∧
    (2 ≤ s.t.toNat → s.k.toNat < 2 →
      ∃ t, exec .evalx s = .next t ∧ RaisedFrom s t .invalidShareCount 0x14#8 s.k) ∧
    (2 ≤ s.t.toNat → 2 ≤ s.k.toNat → s.k.toNat < s.t.toNat →
      ∃ t, exec .evalx s = .next t ∧ RaisedFrom s t .invalidThreshold 0x14#8 s.t) ∧
    (∀ kind info, 2 ≤ s.t.toNat → 2 ≤ s.k.toNat → s.t.toNat ≤ s.k.toNat →
      checkIds s.k.toNat s.x = some (kind, info) →
      ∃ t, exec .evalx s = .next t ∧ RaisedFrom s t kind 0x14#8 info)

/-! ## Interpolator commands -/

/-- R152: SETK stores a count in 2..NP in K, clears WVALID and changes nothing else; any other count raises
INVALID_SHARE_COUNT with the count as INFO. -/
def Obligations.SetkStoresCount : Prop :=
  ∀ (s : State) (n : Byte),
    (2 ≤ n.toNat ∧ n.toNat ≤ s.cfg.np →
      ∃ t, exec (.setk n) s = .next t ∧ Completed s t ∧ t.k = n ∧ t.wvalid = false ∧ t.r = s.r ∧ t.t = s.t ∧
        t.c = s.c ∧ t.x = s.x ∧ t.y = s.y ∧ t.w = s.w) ∧
    (n.toNat < 2 ∨ s.cfg.np < n.toNat →
      ∃ t, exec (.setk n) s = .next t ∧ RaisedFrom s t .invalidShareCount 0x20#8 n)

/-- R150, R158: when its checks pass, LAGW writes to W[k], for k below K, a nonzero value that times the product of
X[j] ⊕ X[k] over the other points is the product of the X[j]; it sets WVALID and changes nothing else. -/
def Obligations.LagwComputesWeights : Prop :=
  ∀ s : State, configOk s.cfg = true → 2 ≤ s.k.toNat → checkIds s.k.toNat s.x = none →
    ∃ t, exec .lagw s = .next t ∧ Completed s t ∧ SameCounts s t ∧ t.r = s.r ∧ t.wvalid = true ∧
      (∀ k < s.k.toNat, Memory.read t.w k ≠ 0x00#8 ∧
        gfMul s.cfg (Memory.read t.w k) (gfProduct s.cfg
          ((othersBelow s.k.toNat k).map (fun j => gfAdd (Memory.read s.x j) (Memory.read s.x k)))) =
        gfProduct s.cfg ((othersBelow s.k.toNat k).map (Memory.read s.x))) ∧
      (∀ k, s.k.toNat ≤ k → Memory.read t.w k = Memory.read s.w k) ∧
      t.c = s.c ∧ t.x = s.x ∧ t.y = s.y

/-- R158, R160: LAGW and INTERP with K below 2 raise INVALID_SHARE_COUNT with K as INFO; otherwise what check_ids
raises, with its INFO. -/
def Obligations.LagwAndInterpChecksInOrder : Prop :=
  ∀ s : State,
    (s.k.toNat < 2 →
      (∃ t, exec .lagw s = .next t ∧ RaisedFrom s t .invalidShareCount 0x26#8 s.k) ∧
      (∃ t, exec .interp s = .next t ∧ RaisedFrom s t .invalidShareCount 0x28#8 s.k)) ∧
    (∀ kind info, 2 ≤ s.k.toNat → checkIds s.k.toNat s.x = some (kind, info) →
      (∃ t, exec .lagw s = .next t ∧ RaisedFrom s t kind 0x26#8 info) ∧
      (∃ t, exec .interp s = .next t ∧ RaisedFrom s t kind 0x28#8 info))

/-- R151, R159: with WVALID = 1, LCOMB writes the sum of Y[k] times W[k] over k below K to R and changes nothing else;
with WVALID = 0 it raises WEIGHTS_STALE with INFO 0x00. -/
def Obligations.LcombSumsWeightedValues : Prop :=
  ∀ s : State,
    (s.wvalid = true → ∃ t, exec .lcomb s = .next t ∧ OnlyResult s t ∧
      t.r = gfSum ((List.range s.k.toNat).map (fun k => gfMul s.cfg (Memory.read s.y k) (Memory.read s.w k)))) ∧
    (s.wvalid = false → ∃ t, exec .lcomb s = .next t ∧ RaisedFrom s t .weightsStale 0x27#8 0x00#8)

/-- R160: when its checks pass, INTERP leaves exactly the state that LAGW and then LCOMB leave. -/
def Obligations.InterpIsLagwThenLcomb : Prop :=
  ∀ s : State, configOk s.cfg = true → 2 ≤ s.k.toNat → checkIds s.k.toNat s.x = none →
    ∃ u v, exec .lagw s = .next u ∧ exec .lcomb u = .next v ∧ exec .interp s = .next v

/-- R162: when the K points are distinct nonzero identifiers, K is at least the threshold n, and Y[k] = horner(n, C,
X[k]) for a polynomial C, whatever the identifiers and their order, INTERP writes C[0] to R; and so does LCOMB in a
state that meets the invariant with WVALID = 1. -/
def Obligations.SharesRecombineToSecret : Prop :=
  ∀ (s : State) (c : Memory) (n : Nat), 2 ≤ n → n ≤ s.k.toNat →
    (∀ k < s.k.toNat, Memory.read s.y k = horner s.cfg n c (Memory.read s.x k)) →
    (configOk s.cfg = true → checkIds s.k.toNat s.x = none →
      ∃ t, exec .interp s = .next t ∧ t.r = Memory.read c 0) ∧
    (BlockInv s → s.wvalid = true → ∃ t, exec .lcomb s = .next t ∧ t.r = Memory.read c 0)

/-- R136, R160, R162 and L1-1, L1-2 of 95_test_vectors.md: combining shares gives the split secret. After EVALX, any
machine of the same configuration whose points are at least T of the points and values EVALX left, each named once and
in any order, gives C[0] by INTERP. -/
def Obligations.SplitThenCombineGivesSecret : Prop :=
  ∀ s : State, configOk s.cfg = true → 2 ≤ s.t.toNat → s.t.toNat ≤ s.k.toNat → checkIds s.k.toNat s.x = none →
    ∃ t, exec .evalx s = .next t ∧
      ∀ u : State, u.cfg = s.cfg → s.t.toNat ≤ u.k.toNat → checkIds u.k.toNat u.x = none →
        (∀ k < u.k.toNat, ∃ j < s.k.toNat,
          Memory.read u.x k = Memory.read t.x j ∧ Memory.read u.y k = Memory.read t.y j) →
        ∃ v, exec .interp u = .next v ∧ v.r = Memory.read s.c 0

/-- R150: "The weights of a set of points sum (⊕) to 0x01". -/
def Obligations.WeightsSumToOne : Prop :=
  ∀ (cfg : Config) (n : Nat) (x : Memory), configOk cfg = true → 1 ≤ n → checkIds n x = none →
    ∃ ws, lagWeights cfg n x = some ws ∧ gfSum ws = 0x01#8

/-! ## Housekeeping -/

/-- R180: ZERO sets every entry of C, X, Y and W, and R and WVALID, to 0, and leaves T, K, the error record and
CTRL. -/
def Obligations.ZeroErasesFilesAndResult : Prop :=
  ∀ s : State, ∃ t, exec .zero s = .next t ∧ Completed s t ∧ SameCounts s t ∧ t.r = 0x00#8 ∧ t.wvalid = false ∧
    ∀ i, Memory.read t.c i = 0x00#8 ∧ Memory.read t.x i = 0x00#8 ∧ Memory.read t.y i = 0x00#8 ∧
      Memory.read t.w i = 0x00#8

/-! ## Errors -/

/-- R202, R205: whatever the command, its completion is either a success, which leaves the error record as it was and
sets DONE, or it raises: it records one error under the command's own opcode, the first error kept, and changes
nothing else but BUSY. -/
def Obligations.ErrorsArePrecise : Prop :=
  ∀ (i : Instr) (s t : State), exec i s = .next t →
    Completed s t ∨ ∃ kind info, RaisedFrom s t kind i.opcode info

/-- R203: a CMD write while READY = 0 or BUSY = 1 records CMD_OVERRUN under the dropped word's opcode; otherwise, with
an error pending, it sets MULTI; otherwise the word is accepted. Nothing else changes. -/
def Obligations.CommandWriteIsAcceptedOrDropped : Prop :=
  ∀ (s : State) (v : Word) (rest : List Turn), s.agenda = Turn.cmdWrite v :: rest →
    (s.ready = false ∨ s.busy = true →
      step s = .next { s with
        agenda := rest
        err :=
          if s.err.code = 0x00#8 then { code := 0x0A#8, opc := v.extractLsb' 24 8, info := 0x00#8, multi := false }
          else { code := s.err.code, opc := s.err.opc, info := s.err.info, multi := true } }) ∧
    (s.ready = true → s.busy = false → s.err.code ≠ 0x00#8 →
      step s = .next { s with
        agenda := rest
        err := { code := s.err.code, opc := s.err.opc, info := s.err.info, multi := true } }) ∧
    (s.ready = true → s.busy = false → s.err.code = 0x00#8 →
      step s = .next { s with agenda := rest, pending := some v })

/-- R206: while an error is pending and no command runs, the block is halted for commands: no turn but a reset or a
CTRL write with ERR_CLR or SRST changes R, T, K, a file, WVALID or READY, or lets a command be accepted, and the
error stays pending. -/
def Obligations.PendingErrorHaltsCommands : Prop :=
  ∀ s t : State, s.ready = true → s.pending = none → s.err.code ≠ 0x00#8 →
    (∀ rest, s.agenda ≠ .reset :: rest) →
    (∀ v rest, s.agenda = Turn.ctrlWrite v :: rest → v.getLsbD 8 = false ∧ v.getLsbD 16 = false) →
    step s = .next t →
    t.ready = true ∧ t.pending = none ∧ t.err.code = s.err.code ∧ t.err.opc = s.err.opc ∧ t.err.info = s.err.info ∧
      t.r = s.r ∧ SameCounts s t ∧ SameFiles s t

/-- R21 to R27: which commands can write what. A command that changes T is a SETT, K a SETK, C a WRC or ZERO, X a WRX
or ZERO, Y a WRY, EVALX or ZERO, W a LAGW, INTERP or ZERO, and NOP, SETT, WRC, EVALX, SETK, WRX, WRY and LAGW never
write R. -/
def Obligations.OnlyNamedCommandsWriteEachRegister : Prop :=
  ∀ (i : Instr) (s t : State), exec i s = .next t →
    (t.t ≠ s.t → ∃ n, i = .sett n) ∧
    (t.k ≠ s.k → ∃ n, i = .setk n) ∧
    (t.c ≠ s.c → (∃ n v, i = .wrc n v) ∨ i = .zero) ∧
    (t.x ≠ s.x → (∃ n v, i = .wrx n v) ∨ i = .zero) ∧
    (t.y ≠ s.y → (∃ n v, i = .wry n v) ∨ i = .evalx ∨ i = .zero) ∧
    (t.w ≠ s.w → i = .lagw ∨ i = .interp ∨ i = .zero) ∧
    ((i = .nop ∨ (∃ n, i = .sett n) ∨ (∃ n v, i = .wrc n v) ∨ i = .evalx ∨ (∃ n, i = .setk n) ∨
      (∃ n v, i = .wrx n v) ∨ (∃ n v, i = .wry n v) ∨ i = .lagw) → t.r = s.r)

/-- R28: WVALID is set to 1 by a successful LAGW or INTERP, which leaves in W[0..K-1] the weights of the current
X[0..K-1] and K, and by nothing else; it is cleared by a successful SETK or
WRX, by ZERO and by reset, and by nothing else; LCOMB raises WEIGHTS_STALE when it is 0; it is 0 at reset and reads
as STATUS[4]. -/
def Obligations.WvalidSettersAndClearers : Prop :=
  (∀ (i : Instr) (s t : State), exec i s = .next t → Completed s t → s.err.code = 0x00#8 →
    ((i = .lagw ∨ i = .interp) → t.wvalid = true ∧
      lagWeights t.cfg t.k.toNat t.x = some (Memory.take t.w t.k.toNat)) ∧
    ((∃ n, i = .setk n) ∨ (∃ n v, i = .wrx n v) ∨ i = .zero → t.wvalid = false)) ∧
  (∀ s t : State, step s = .next t → t.wvalid ≠ s.wvalid →
    (∃ w i, s.pending = some w ∧ decodeWord w = .ok i ∧
      ((t.wvalid = true ∧ (i = .lagw ∨ i = .interp)) ∨
        (t.wvalid = false ∧ ((∃ n, i = .setk n) ∨ (∃ n v, i = .wrx n v) ∨ i = .zero)))) ∨
    (t.wvalid = false ∧ ((∃ rest, s.agenda = .reset :: rest) ∨
      ∃ v rest, s.agenda = Turn.ctrlWrite v :: rest ∧ v.getLsbD 16 = true))) ∧
  (∀ s : State, s.wvalid = false → ∃ t, exec .lcomb s = .next t ∧ RaisedFrom s t .weightsStale 0x27#8 0x00#8) ∧
  State.reset.wvalid = false ∧
  ∀ s : State, (s.readAt .word 0x0C).getLsbD 4 = s.wvalid

/-! ## The register window -/

/-- R52 to R54, R56: a host read of 8, 16 or 32 bits at any offset of the window, aligned or not, returns its value, the
addressed bytes of the register or 0 when misaligned, as the model's readAt gives it, and has no side effect: that
one answer is added (log 3), the turn is taken, and nothing else changes. -/
def Obligations.HostReadsHaveNoSideEffect : Prop :=
  ∀ (s : State) (size : Size) (off : Nat) (rest : List Turn), off < 64 →
    s.agenda = .host (.read size (Config.base + off)) :: rest →
    step s = .next { s with agenda := rest, replies := s.replies ++ [s.readAt size off] }

/-- R52, R36 to R45: a 32-bit read at a register's offset answers the register: ID, PARAM, CTRL, STATUS, RESULT, ERR
and CFG bit for bit, and 0 for CMD and every reserved word offset; right after reset PARAM reads 0x1B03FFFF in the
default configuration and CTRL, STATUS, RESULT, ERR and CFG read 0. -/
def Obligations.RegistersReadTheirFields : Prop :=
  (∀ (s : State) (off : Nat) (rest : List Turn), off < 64 → off % 4 = 0 →
    s.agenda = .host (.read .word (Config.base + off)) :: rest →
    step s = .next { s with agenda := rest, replies := s.replies ++ [s.readAt .word off] }) ∧
  ∀ s : State,
    s.readAt .word 0x00 = 0x47463801#32 ∧
    ((s.cfg.nc < 256 → ((s.readAt .word 0x04).extractLsb' 0 8).toNat = s.cfg.nc) ∧
      (s.cfg.np < 256 → ((s.readAt .word 0x04).extractLsb' 8 8).toNat = s.cfg.np) ∧
      (s.readAt .word 0x04).extractLsb' 16 8 = s.cfg.gen ∧
      (s.readAt .word 0x04).extractLsb' 24 8 = s.cfg.poly.extractLsb' 0 8) ∧
    (∀ i < 32, (s.readAt .word 0x08).getLsbD i =
      if i = 0 then s.ieDone else if i = 1 then s.ieErr else false) ∧
    (∀ i < 32, (s.readAt .word 0x0C).getLsbD i =
      if i = 0 then s.ready else if i = 1 then s.busy else if i = 2 then s.done
      else if i = 3 then decide (s.err.code ≠ 0x00#8) else if i = 4 then s.wvalid else false) ∧
    s.readAt .word 0x10 = 0#32 ∧
    (s.readAt .word 0x14).toNat = s.r.toNat ∧
    ((s.readAt .word 0x18).extractLsb' 0 8 = s.err.code ∧ (s.readAt .word 0x18).extractLsb' 8 8 = s.err.opc ∧
      (s.readAt .word 0x18).extractLsb' 16 8 = s.err.info ∧ (s.readAt .word 0x18).extractLsb' 24 7 = 0#7 ∧
      (s.readAt .word 0x18).getLsbD 31 = s.err.multi) ∧
    ((s.readAt .word 0x1C).extractLsb' 0 8 = s.t ∧ (s.readAt .word 0x1C).extractLsb' 8 8 = s.k ∧
      (s.readAt .word 0x1C).extractLsb' 16 16 = 0#16) ∧
    (∀ off, 0x20 ≤ off → off < 0x40 → off % 4 = 0 → s.readAt .word off = 0#32) ∧
    State.reset.readAt .word 0x04 = 0x1B03FFFF#32 ∧
    ∀ off ∈ [0x08, 0x0C, 0x14, 0x18, 0x1C], State.reset.readAt .word off = 0#32

/-- R53, R54, R55: a sub-word write, a write with a strobe missing, a misaligned write and a write to a register other
than CTRL and CMD or to a reserved offset change nothing; an aligned 8-bit or 16-bit read answers its byte lanes
of the 32-bit word, little-endian; a misaligned read answers 0. That the lowest byte read is in bits 7:0 of the answer
is the model's reading (log 4). -/
def Obligations.SubwordAndMisalignedAccesses : Prop :=
  (∀ (s : State) (size : Size) (off : Nat) (strobes : BitVec 4) (v : Word) (rest : List Turn), off < 64 →
    s.agenda = .host (.write size (Config.base + off) strobes v) :: rest →
    size ≠ .word ∨ strobes ≠ 0xF#4 ∨ (off ≠ 0x08 ∧ off ≠ 0x10) →
    step s = .next { s with agenda := rest }) ∧
  ∀ (s : State) (off : Nat), off < 64 →
    (∀ i < 32, (s.readAt .byte off).getLsbD i =
      (decide (i < 8) && (s.readAt .word (off - off % 4)).getLsbD (8 * (off % 4) + i))) ∧
    (off % 2 = 0 → ∀ i < 32, (s.readAt .half off).getLsbD i =
      (decide (i < 16) && (s.readAt .word (off - off % 4)).getLsbD (8 * (off % 4) + i))) ∧
    (off % 2 = 1 → s.readAt .half off = 0#32) ∧ (off % 4 ≠ 0 → s.readAt .word off = 0#32)

/-- R51, 93_implementation_defined.md I15 "refuse", log 8: an access outside BASE to BASE+0x3F is not the block's,
and the step is refused by that name. -/
def Obligations.AccessesOutsideTheWindowAreRefused : Prop :=
  ∀ (s : State) (addr : Nat) (size : Size) (strobes : BitVec 4) (v : Word) (rest : List Turn),
    addr < Config.base ∨ Config.base + 64 ≤ addr →
    s.agenda = .host (.read size addr) :: rest ∨ s.agenda = .host (.write size addr strobes v) :: rest →
    step s = .refused .outsideWindow

/-- R39: a CTRL write stores the enables, then clears the error record if v[8] = 1, then clears DONE if v[9] = 1, and
changes nothing else, unless v[16] = 1: then a soft reset follows, which leaves what the hard reset leaves and so
also clears the enables. Reserved bits and action bits written 0 do nothing, and both read 0. -/
def Obligations.CtrlWriteEffects : Prop :=
  ∀ (s : State) (v : Word) (rest : List Turn), s.agenda = Turn.ctrlWrite v :: rest →
    (v.getLsbD 16 = false →
      step s = .next { s with
        agenda := rest
        ieDone := v.getLsbD 0
        ieErr := v.getLsbD 1
        err := if v.getLsbD 8 then { code := 0x00#8, opc := 0x00#8, info := 0x00#8, multi := false } else s.err
        done := if v.getLsbD 9 then false else s.done }) ∧
    (v.getLsbD 16 = true →
      ∃ t, step s = .next t ∧ step { s with agenda := .reset :: rest } = .next t ∧
        t.ieDone = false ∧ t.ieErr = false) ∧
    ∀ i < 32, (s.readAt .word 0x08).getLsbD i = if i = 0 then s.ieDone else if i = 1 then s.ieErr else false

/-- R207: irq is (IE_DONE and DONE) or (IE_ERR and CODE ≠ 0): any success raises it under IE_DONE, any error under
IE_ERR, clearing both causes or both enables by a CTRL write deasserts it, and reset deasserts it. -/
def Obligations.InterruptFollowsItsCauses : Prop :=
  (∀ s : State, s.irq = true ↔ (s.ieDone = true ∧ s.done = true) ∨ (s.ieErr = true ∧ s.err.code ≠ 0x00#8)) ∧
  (∀ (i : Instr) (s t : State), exec i s = .next t → Completed s t → s.ieDone = true → t.irq = true) ∧
  (∀ (s t : State) (kind : ErrorKind) (opc info : Byte), RaisedFrom s t kind opc info → s.ieErr = true →
    t.irq = true) ∧
  (∀ (s t : State) (v : Word) (rest : List Turn), s.agenda = Turn.ctrlWrite v :: rest →
    (v.getLsbD 8 = true ∧ v.getLsbD 9 = true) ∨ (v.getLsbD 0 = false ∧ v.getLsbD 1 = false) ∨
      v.getLsbD 16 = true →
    step s = .next t → t.irq = false) ∧
  State.reset.irq = false

/-- R56, R58, R61, R256: no host access changes R, T, K, a file, WVALID, READY or a command already accepted, but a
CTRL write that starts a soft reset. -/
def Obligations.HostAccessesLeaveDataAndAcceptedCommand : Prop :=
  ∀ (s t : State) (access : Access) (rest : List Turn), s.agenda = .host access :: rest → step s = .next t →
    (∀ v, Turn.host access = Turn.ctrlWrite v → v.getLsbD 16 = false) →
    t.r = s.r ∧ SameCounts s t ∧ SameFiles s t ∧ t.ready = s.ready ∧ (∀ w, s.pending = some w → t.pending = some w)

/-! ## Reset -/

/-- R250, R251: a hard reset and a soft reset, at any point, leave the same state: every register and file at its reset
value, READY 0, no command pending and no error recorded, interrupts off, the tables the same. The engine's next step
sets READY and changes nothing else. -/
def Obligations.ResetRestoresEveryValue : Prop :=
  ∀ (s : State) (rest : List Turn) (v : Word),
    (s.agenda = .reset :: rest ∨ (s.agenda = Turn.ctrlWrite v :: rest ∧ v.getLsbD 16 = true)) →
    ∃ t, step s = .next t ∧
      t.r = 0x00#8 ∧ t.t = 0x00#8 ∧ t.k = 0x00#8 ∧ t.wvalid = false ∧
      (∀ i, Memory.read t.c i = 0x00#8 ∧ Memory.read t.x i = 0x00#8 ∧ Memory.read t.y i = 0x00#8 ∧
        Memory.read t.w i = 0x00#8) ∧
      (∀ i, expEntry t.cfg i = expEntry s.cfg i) ∧ (∀ a, logEntry t.cfg a = logEntry s.cfg a) ∧
      t.ready = false ∧ t.busy = false ∧ t.pending = none ∧ t.done = false ∧ t.ieDone = false ∧ t.ieErr = false ∧
      t.err.code = 0x00#8 ∧ t.err.opc = 0x00#8 ∧ t.err.info = 0x00#8 ∧ t.err.multi = false ∧ t.irq = false ∧
      ∀ later, step { t with agenda := .engine :: later } = .next { t with agenda := later, ready := true }

/-! ## Whole-machine claims -/

/-- R262: in a legal configuration every command, in every state, completes. -/
def Obligations.EveryCommandCompletes : Prop :=
  ∀ (i : Instr) (s : State), configOk s.cfg = true → ∃ t, exec i s = .next t ∧ t.pending = none ∧ t.ready = s.ready

/-- R252, R262: in a legal configuration an engine turn always makes its step: READY is 1 after it, and a command that
was pending with READY = 1, legal or not, is pending no more. With no turn planned the engine has it (log 2). -/
def Obligations.EngineTurnMakesProgress : Prop :=
  ∀ (s : State) (rest : List Turn), configOk s.cfg = true → s.agenda = [] ∨ s.agenda = .engine :: rest →
    ∃ t, step s = .next t ∧ t.ready = true ∧ (s.ready = true → t.pending = none)

/-- R8, R20: no step changes the configuration, which the model holds in its state (log 1). -/
def Obligations.StepKeepsConfiguration : Prop :=
  ∀ s t : State, step s = .next t → t.cfg = s.cfg

/-- R22 to R28, R33, R35, R57, R201: every step from a state that meets the invariant leads to one that meets it: T and
K stay legal, the files keep their canonical form and sizes, WVALID = 1 means that W[0..K-1] are the weights of
X[0..K-1], CODE stays a code of R201, and nothing runs before the reset sequence ends. -/
def Obligations.StepKeepsInvariant : Prop :=
  ∀ s t : State, BlockInv s → step s = .next t → BlockInv t

/-- R2, R8, R251: the state after reset meets the invariant. -/
def Obligations.ResetMeetsInvariant : Prop := BlockInv State.reset

/-- R262, R263: a run ends where the three conditions of R263 first hold, at one state only, and what is planned after
the last CMD write and the last needed read does not move the end. In a legal configuration a run ends when its
accesses reach the block and its reads are enough. That turns are a list, the engine taking over at its end, is the
model's choice (log 2), and so is counting the needed results (log 20). -/
def Obligations.RunEndsAtOneState : Prop :=
  ∀ (answers : Nat) (s : State),
    (∀ t, RunEndsAt answers s t → EndOfRun answers t ∧ ∀ u, RunEndsAt answers s u → u = t) ∧
    (∀ later, EndOfRun answers s → (∀ v, Turn.cmdWrite v ∉ later) →
      RunEndsAt answers { s with agenda := later } { s with agenda := later }) ∧
    (configOk s.cfg = true → (∀ access, Turn.host access ∈ s.agenda → access.InWindow) →
      answers ≤ s.replies.length + (s.agenda.filter Turn.isRead).length → ∃ t, RunEndsAt answers s t)
end

