-- ==== Sys2Proof/Laws/Decode.lean ====
section
/-! SUPPORT. The laws of fields and bytes: cutting a word into fields undoes putting it together, and so for
bytes; the decoder on bytes is the decoder on the word they are. -/

namespace Sys2Proof

theorem ofBool_getLsbD (b : Bool) (i : Nat) : (BitVec.ofBool b).getLsbD i = (decide (i = 0) && b) := by
  cases b <;> cases i <;> simp

/-- Every bit of a word made of fields (R70). -/
theorem Fields.toWord_getLsbD (f : Fields) (i : Nat) : f.toWord.getLsbD i =
    if i < 8 then f.b.getLsbD i else if i < 16 then f.a.getLsbD (i - 8) else if i = 16 then f.sa
    else if i = 17 then f.sb else if i < 24 then f.rsv.getLsbD (i - 18) else f.opc.getLsbD (i - 24) := by
  unfold Fields.toWord
  simp only [BitVec.getLsbD_append, ofBool_getLsbD]
  split_ifs <;> first | rfl | omega | skip
  all_goals simp_all

/-- Cutting undoes putting together (R70). -/
@[simp] theorem Fields.ofWord_toWord (f : Fields) : Fields.ofWord f.toWord = f := by
  obtain ⟨opc, rsv, sb, sa, a, b⟩ := f
  simp only [Fields.ofWord, Fields.mk.injEq]
  refine ⟨?_, ?_, by rw [Fields.toWord_getLsbD]; rfl, by rw [Fields.toWord_getLsbD]; rfl, ?_, ?_⟩ <;>
    (apply BitVec.eq_of_getLsbD_eq
     intro i hi
     rw [BitVec.getLsbD_extractLsb', Fields.toWord_getLsbD])
  · rw [if_neg (by omega), if_neg (by omega), if_neg (by omega), if_neg (by omega), if_neg (by omega)]
    simp [hi]
  · rw [if_neg (by omega), if_neg (by omega), if_neg (by omega), if_neg (by omega), if_pos (by omega)]
    simp [hi]
  · rw [if_neg (by omega), if_pos (by omega)]
    simp [hi]
  · rw [if_pos (by omega)]
    simp [hi]

/-- Putting together undoes cutting (R70). -/
@[simp] theorem Fields.toWord_ofWord (w : Word) : (Fields.ofWord w).toWord = w := by
  apply BitVec.eq_of_getLsbD_eq
  intro i hi
  simp only [Fields.ofWord, Fields.toWord, BitVec.getLsbD_append, BitVec.getLsbD_extractLsb', ofBool_getLsbD]
  interval_cases i <;> simp

/-- The bytes of a word make the word (R55). -/
theorem wordOfBytes_extract (w : Word) :
    wordOfBytes (w.extractLsb' 0 8) (w.extractLsb' 8 8) (w.extractLsb' 16 8) (w.extractLsb' 24 8) = w := by
  apply BitVec.eq_of_getLsbD_eq
  intro i hi
  simp only [wordOfBytes, BitVec.getLsbD_append, BitVec.getLsbD_extractLsb']
  interval_cases i <;> simp

/-- Decoding the bytes of a word decodes the word and leaves the bytes after it (R81). -/
theorem decode_bytesOfWord (w : Word) (rest : List Byte) :
    decode (bytesOfWord w ++ rest) =
      match decodeWord w with
      | .ok i => .ok (i, rest)
      | .error e => .error e := by
  simp only [bytesOfWord, List.cons_append, List.nil_append, decode, wordOfBytes_extract]
  all_goals cases decodeWord w <;> rfl

@[simp] theorem decodeWord_toWord (f : Fields) : decodeWord f.toWord = decodeFields f := by
  rw [decodeWord, Fields.ofWord_toWord]

/-- The opcodes of the map are 23 distinct values, each with one row (R75). -/
theorem opcodeMap_nodup : (opcodeMap.map (·.1)).Nodup ∧ opcodeMap.length = 23 := by decide

end Sys2Proof
end

