-- ==== Sys2Proof/Laws/Field.lean ====
section
/-! SUPPORT. The laws of the field functions: multiplication is additive in each operand, commutative and
associative, the powers of GEN add their exponents, and in a legal configuration every nonzero element has a
logarithm. -/

namespace Sys2Proof.Machine

/-! ## Additive functions of bit strings -/

/-- A function of bit strings that carries XOR to XOR. -/
def Additive {n : Nat} (f : BitVec n → Byte) : Prop := ∀ p q, f (p ^^^ q) = f p ^^^ f q

theorem Additive.zero {n : Nat} {f : BitVec n → Byte} (hf : Additive f) : f 0#n = 0x00#8 := by
  have := hf 0#n 0#n
  rw [BitVec.xor_self, BitVec.xor_self] at this
  exact this

/-- Two additive functions that agree on every single bit agree. -/
theorem Additive.ext {n : Nat} {f g : BitVec n → Byte} (hf : Additive f) (hg : Additive g)
    (h : ∀ i < n, f (BitVec.twoPow n i) = g (BitVec.twoPow n i)) (p : BitVec n) : f p = g p := by
  suffices H : ∀ k p, (∀ i, k ≤ i → p.getLsbD i = false) → k ≤ n → f p = g p from
    H n p (fun i hi => BitVec.getLsbD_of_ge p i hi) le_rfl
  intro k
  induction k with
  | zero =>
    intro p hp _
    have : p = 0#n := BitVec.eq_of_getLsbD_eq (fun i _ => by simp [hp i (by omega)])
    rw [this, hf.zero, hg.zero]
  | succ k ih =>
    intro p hp hk
    by_cases hb : p.getLsbD k
    · have hq : ∀ i, k ≤ i → (p ^^^ BitVec.twoPow n k).getLsbD i = false := by
        intro i hi
        rw [BitVec.getLsbD_xor, BitVec.getLsbD_twoPow]
        rcases Nat.eq_or_lt_of_le hi with rfl | hlt
        · simp [hb]; omega
        · simp [hp i (by omega), show ¬ k = i by omega]
      have he : p = (p ^^^ BitVec.twoPow n k) ^^^ BitVec.twoPow n k := by
        rw [BitVec.xor_assoc, BitVec.xor_self, BitVec.xor_zero]
      rw [he, hf, hg, ih _ hq (by omega), h k (by omega)]
    · refine ih p (fun i hi => ?_) (by omega)
      rcases Nat.eq_or_lt_of_le hi with rfl | hlt
      · simpa using hb
      · exact hp i (by omega)

theorem Additive.comp {n m : Nat} {f : BitVec n → Byte} (hf : Additive f) (g : BitVec m → BitVec n)
    (hg : ∀ p q, g (p ^^^ q) = g p ^^^ g q) : Additive (fun p => f (g p)) := fun p q => by
  show f (g (p ^^^ q)) = _
  rw [hg, hf]

/-! ## The two loops of R101 -/

theorem reduceBit_xor (poly : PolyBits) (p q : Product) (i : Nat) :
    reduceBit poly (p ^^^ q) i = reduceBit poly p i ^^^ reduceBit poly q i := by
  unfold reduceBit
  rw [BitVec.getLsbD_xor]
  cases p.getLsbD i <;> cases q.getLsbD i <;> simp only [Bool.xor_false, Bool.xor_true, Bool.not_false,
    Bool.not_true, Bool.false_eq_true, if_true, if_false]
  · ac_rfl
  · ac_rfl
  · rw [show ∀ u v w : Product, (u ^^^ w) ^^^ (v ^^^ w) = (u ^^^ v) ^^^ (w ^^^ w) from fun u v w => by ac_rfl,
      BitVec.xor_self, BitVec.xor_zero]

/-- Reduction modulo POLY is additive. -/
theorem reduce_additive (poly : PolyBits) : Additive (reduce poly) := by
  intro p q
  simp only [reduce, List.foldl, reduceBit_xor, BitVec.extractLsb'_xor]

theorem clMul_xor_left (a a' b : Byte) : clMul (a ^^^ a') b = clMul a b ^^^ clMul a' b := by
  have key : ∀ (l : List Nat) (p q : Product),
      l.foldl (fun p i => if b.getLsbD i then p ^^^ ((a ^^^ a').setWidth 15 <<< i) else p) (p ^^^ q) =
      l.foldl (fun p i => if b.getLsbD i then p ^^^ (a.setWidth 15 <<< i) else p) p ^^^
      l.foldl (fun p i => if b.getLsbD i then p ^^^ (a'.setWidth 15 <<< i) else p) q := by
    intro l
    induction l with
    | nil => intro p q; rfl
    | cons i l ih =>
      intro p q
      simp only [List.foldl_cons]
      split
      · rw [← ih]; congr 1
        rw [BitVec.setWidth_xor, BitVec.shiftLeft_xor_distrib]; ac_rfl
      · exact ih p q
  have := key (List.range 8) 0#15 0#15
  rwa [BitVec.xor_self] at this

theorem clMul_xor_right (a b b' : Byte) : clMul a (b ^^^ b') = clMul a b ^^^ clMul a b' := by
  have key : ∀ (l : List Nat) (p q : Product),
      l.foldl (fun p i => if (b ^^^ b').getLsbD i then p ^^^ (a.setWidth 15 <<< i) else p) (p ^^^ q) =
      l.foldl (fun p i => if b.getLsbD i then p ^^^ (a.setWidth 15 <<< i) else p) p ^^^
      l.foldl (fun p i => if b'.getLsbD i then p ^^^ (a.setWidth 15 <<< i) else p) q := by
    intro l
    induction l with
    | nil => intro p q; rfl
    | cons i l ih =>
      intro p q
      simp only [List.foldl_cons]
      rw [BitVec.getLsbD_xor, ← ih]
      congr 1
      cases b.getLsbD i <;> cases b'.getLsbD i <;> simp only [Bool.xor_false, Bool.xor_true, Bool.not_false,
        Bool.not_true, Bool.false_eq_true, if_true, if_false]
      · ac_rfl
      · ac_rfl
      · rw [show ∀ u v w : Product, (u ^^^ w) ^^^ (v ^^^ w) = (u ^^^ v) ^^^ (w ^^^ w) from
          fun u v w => by ac_rfl, BitVec.xor_self, BitVec.xor_zero]
  have := key (List.range 8) 0#15 0#15
  rwa [BitVec.xor_self] at this

/-! ## Multiplication -/

variable (cfg : Config) (a b c : Byte)

/-- Multiplication distributes over addition (R106 item 4), left operand. -/
theorem gfMul_add_left (a a' b : Byte) : gfMul cfg (a ^^^ a') b = gfMul cfg a b ^^^ gfMul cfg a' b := by
  simp only [gfMul, clMul_xor_left, reduce_additive cfg.poly _ _]

/-- Multiplication distributes over addition (R106 item 4), right operand. -/
theorem gfMul_add_right (a b b' : Byte) : gfMul cfg a (b ^^^ b') = gfMul cfg a b ^^^ gfMul cfg a b' := by
  simp only [gfMul, clMul_xor_right, reduce_additive cfg.poly _ _]

theorem gfMul_additive_left : Additive (fun a => gfMul cfg a b) := fun p q => gfMul_add_left cfg p q b

theorem gfMul_additive_right : Additive (gfMul cfg a) := gfMul_add_right cfg a

theorem clMul_twoPow_comm : ∀ i < 8, ∀ j < 8,
    clMul (BitVec.twoPow 8 i) (BitVec.twoPow 8 j) = clMul (BitVec.twoPow 8 j) (BitVec.twoPow 8 i) := by
  decide +kernel

/-- Multiplication is commutative (R106 item 4). -/
theorem gfMul_comm : gfMul cfg a b = gfMul cfg b a := by
  refine Additive.ext (f := fun a => gfMul cfg a b) (g := gfMul cfg b) (gfMul_additive_left cfg b)
    (gfMul_additive_right cfg b) (fun i hi => ?_) a
  refine Additive.ext (f := gfMul cfg (BitVec.twoPow 8 i)) (g := fun b => gfMul cfg b (BitVec.twoPow 8 i))
    (gfMul_additive_right cfg _) (gfMul_additive_left cfg _) (fun j hj => ?_) b
  simp only [gfMul, clMul_twoPow_comm i hi j hj]

/-- Multiply by x: shift, and cancel bit 8 with POLY. -/
def mulX (poly : PolyBits) (a : Byte) : Byte := (reduceBit poly (a.setWidth 15 <<< 1) 8).extractLsb' 0 8

theorem mulX_additive (poly : PolyBits) : Additive (mulX poly) := by
  intro p q
  simp only [mulX, BitVec.setWidth_xor, BitVec.shiftLeft_xor_distrib, reduceBit_xor, BitVec.extractLsb'_xor]

variable {cfg}

theorem reduceBit_of_clear (poly : PolyBits) (p : Product) (i : Nat) (h : p.getLsbD i = false) :
    reduceBit poly p i = p := by rw [reduceBit, h]; rfl

/-- A product below x^8 is its own remainder. -/
theorem reduce_byte (poly : PolyBits) (a : Byte) : reduce poly (a.setWidth 15) = a := by
  have ha : ∀ i, 8 ≤ i → (a.setWidth 15).getLsbD i = false := fun i hi => by
    simp [BitVec.getLsbD_of_ge a i hi]
  simp only [reduce, List.foldl, reduceBit_of_clear poly _ _ (ha _ (by omega : 8 ≤ 14)),
    reduceBit_of_clear poly _ _ (ha _ (by omega : 8 ≤ 13)), reduceBit_of_clear poly _ _ (ha _ (by omega : 8 ≤ 12)),
    reduceBit_of_clear poly _ _ (ha _ (by omega : 8 ≤ 11)), reduceBit_of_clear poly _ _ (ha _ (by omega : 8 ≤ 10)),
    reduceBit_of_clear poly _ _ (ha _ (by omega : 8 ≤ 9)), reduceBit_of_clear poly _ _ (ha 8 le_rfl)]
  apply BitVec.eq_of_getLsbD_eq
  intro i hi
  simp [hi, show i < 15 by omega]

/-- Multiplying a byte by x needs only the last pass of the reduction. -/
theorem reduce_byte_shift (poly : PolyBits) (a : Byte) : reduce poly (a.setWidth 15 <<< 1) = mulX poly a := by
  have ha : ∀ i, 9 ≤ i → (a.setWidth 15 <<< 1).getLsbD i = false := fun i hi => by
    simp [BitVec.getLsbD_of_ge a (i - 1) (by omega)]
  simp only [reduce, mulX, List.foldl, reduceBit_of_clear poly _ _ (ha _ (by omega : 9 ≤ 14)),
    reduceBit_of_clear poly _ _ (ha _ (by omega : 9 ≤ 13)), reduceBit_of_clear poly _ _ (ha _ (by omega : 9 ≤ 12)),
    reduceBit_of_clear poly _ _ (ha _ (by omega : 9 ≤ 11)), reduceBit_of_clear poly _ _ (ha _ (by omega : 9 ≤ 10)),
    reduceBit_of_clear poly _ _ (ha 9 le_rfl)]

/-- A multiple of POLY by a power of x reduces to 0, when POLY has degree 8. -/
theorem reduce_poly_shift {poly : PolyBits} (h : poly.getLsbD 8 = true) (j : Nat) (hj : j < 7) :
    reduce poly (poly.setWidth 15 <<< j) = 0x00#8 := by
  have hz : ∀ i, reduceBit poly 0#15 i = 0#15 := fun i => reduceBit_of_clear poly _ i (by simp)
  have hc : ∀ i, 9 + j ≤ i → reduceBit poly (poly.setWidth 15 <<< j) i = poly.setWidth 15 <<< j := fun i hi =>
    reduceBit_of_clear poly _ i (by simp [BitVec.getLsbD_of_ge poly (i - j) (by omega)])
  have ht : reduceBit poly (poly.setWidth 15 <<< j) (8 + j) = 0#15 := by
    rw [reduceBit, if_pos (by simp [h, show ¬ 8 + j < j by omega, show 8 + j < 15 by omega]),
      show 8 + j - 8 = j by omega, BitVec.xor_self]
  unfold reduce
  simp only [List.foldl]
  interval_cases j <;> simp (disch := omega) only [hc, ht, hz] <;> rfl

/-- Reducing a shifted product is multiplying its reduction by x, when POLY has degree 8. -/
theorem reduce_shift {poly : PolyBits} (h : poly.getLsbD 8 = true) (p : BitVec 14) :
    reduce poly (p.setWidth 15 <<< 1) = mulX poly (reduce poly (p.setWidth 15)) := by
  suffices H : ∀ k (p : BitVec 14), (∀ i, k ≤ i → p.getLsbD i = false) → k ≤ 14 →
      reduce poly (p.setWidth 15 <<< 1) = mulX poly (reduce poly (p.setWidth 15)) from
    H 14 p (fun i hi => BitVec.getLsbD_of_ge p i hi) le_rfl
  intro k
  induction k with
  | zero =>
    intro p hp _
    have : p = 0#14 := BitVec.eq_of_getLsbD_eq (fun i _ => by simp [hp i (by omega)])
    subst this
    exact (reduce_byte_shift poly 0#8).trans (congrArg (mulX poly) (reduce_byte poly 0#8).symm)
  | succ k ih =>
    intro p hp hk
    by_cases hk8 : k < 8
    · have hq : p.setWidth 15 = (p.setWidth 8).setWidth 15 := by
        apply BitVec.eq_of_getLsbD_eq
        intro i _
        simp only [BitVec.getLsbD_setWidth]
        by_cases hi : i < 8
        · simp [hi]
        · simp [hi, hp i (by omega)]
      rw [hq, reduce_byte, reduce_byte_shift]
    · by_cases hb : p.getLsbD k
      · have hq : ∀ i, k ≤ i → (p ^^^ (poly.setWidth 14 <<< (k - 8))).getLsbD i = false := by
          intro i hi
          rw [BitVec.getLsbD_xor]
          rcases Nat.eq_or_lt_of_le hi with rfl | hlt
          · rw [hb, BitVec.getLsbD_shiftLeft, BitVec.getLsbD_setWidth, show k - (k - 8) = 8 by omega, h]
            simp [show k < 14 by omega]
          · simp [hp i (by omega), BitVec.getLsbD_of_ge poly (i - (k - 8)) (by omega)]
        have hs : (poly.setWidth 14 <<< (k - 8)).setWidth 15 = (poly.setWidth 15 <<< (k - 8) : Product) := by
          apply BitVec.eq_of_toNat_eq
          have := poly.isLt
          simp only [BitVec.toNat_shiftLeft, BitVec.toNat_setWidth, Nat.shiftLeft_eq]
          have : k < 14 := by omega
          interval_cases k <;> omega
        have hs1 : (poly.setWidth 15 <<< (k - 8) <<< 1 : Product) = poly.setWidth 15 <<< (k - 7) := by
          rw [← BitVec.shiftLeft_add]; congr 1; omega
        have hi := ih _ hq (by omega)
        rw [BitVec.setWidth_xor, BitVec.shiftLeft_xor_distrib, hs, hs1, reduce_additive poly, reduce_additive poly,
          reduce_poly_shift h _ (by omega), reduce_poly_shift h _ (by omega), BitVec.xor_zero,
          BitVec.xor_zero] at hi
        exact hi
      · refine ih p (fun i hi => ?_) (by omega)
        rcases Nat.eq_or_lt_of_le hi with rfl | hlt
        · simpa using hb
        · exact hp i (by omega)

theorem clMul_twoPow_right : ∀ i < 8, ∀ j < 8,
    clMul (BitVec.twoPow 8 j) (BitVec.twoPow 8 i) = (BitVec.twoPow 8 j).setWidth 15 <<< i := by decide +kernel

/-- Multiplying by x^i is i multiplications by x. -/
theorem gfMul_twoPow (h : cfg.poly.getLsbD 8 = true) (a : Byte) :
    ∀ i < 8, gfMul cfg a (BitVec.twoPow 8 i) = (mulX cfg.poly)^[i] a := by
  have base : ∀ i < 8, gfMul cfg a (BitVec.twoPow 8 i) = reduce cfg.poly (a.setWidth 15 <<< i) := by
    intro i hi
    refine Additive.ext (f := fun a => gfMul cfg a (BitVec.twoPow 8 i))
      (g := fun a : Byte => reduce cfg.poly (a.setWidth 15 <<< i)) (gfMul_additive_left cfg _) ?_
      (fun j hj => by simp only [gfMul, clMul_twoPow_right i hi j hj]) a
    exact (reduce_additive cfg.poly).comp (fun a : Byte => a.setWidth 15 <<< i) (fun p q => by
      simp only [BitVec.setWidth_xor, BitVec.shiftLeft_xor_distrib])
  intro i hi
  rw [base i hi]
  induction i with
  | zero => simpa using reduce_byte cfg.poly a
  | succ i ih =>
    rw [Function.iterate_succ_apply', ← ih (by omega)]
    have ha := a.isLt
    have h1 : a.setWidth 15 <<< (i + 1) = ((a.setWidth 14 <<< i).setWidth 15 <<< 1 : Product) := by
      apply BitVec.eq_of_toNat_eq
      simp only [BitVec.toNat_shiftLeft, BitVec.toNat_setWidth, Nat.shiftLeft_eq]
      have : i < 7 := by omega
      interval_cases i <;> omega
    have h2 : (a.setWidth 14 <<< i).setWidth 15 = (a.setWidth 15 <<< i : Product) := by
      apply BitVec.eq_of_toNat_eq
      simp only [BitVec.toNat_shiftLeft, BitVec.toNat_setWidth, Nat.shiftLeft_eq]
      have : i < 7 := by omega
      interval_cases i <;> omega
    rw [h1, reduce_shift h, h2]

theorem gfMul_mulX_left (h : cfg.poly.getLsbD 8 = true) (a b : Byte) :
    gfMul cfg (mulX cfg.poly a) b = mulX cfg.poly (gfMul cfg a b) := by
  refine Additive.ext (f := gfMul cfg (mulX cfg.poly a)) (g := fun b => mulX cfg.poly (gfMul cfg a b))
    (gfMul_additive_right cfg _) (fun p q => ?_) (fun i hi => ?_) b
  · show mulX cfg.poly (gfMul cfg a (p ^^^ q)) = _
    rw [gfMul_add_right, mulX_additive cfg.poly]
  · show _ = mulX cfg.poly (gfMul cfg a (BitVec.twoPow 8 i))
    rw [gfMul_twoPow h _ i hi, gfMul_twoPow h _ i hi]
    exact (Function.Commute.refl (mulX cfg.poly)).iterate_left i |>.eq a

/-- Factors on the right may change places. -/
theorem gfMul_right_comm (h : cfg.poly.getLsbD 8 = true) (a b c : Byte) :
    gfMul cfg (gfMul cfg a b) c = gfMul cfg (gfMul cfg a c) b := by
  refine Additive.ext (f := gfMul cfg (gfMul cfg a b)) (g := fun c => gfMul cfg (gfMul cfg a c) b)
    (gfMul_additive_right cfg _) (fun p q => ?_) (fun i hi => ?_) c
  · show gfMul cfg (gfMul cfg a (p ^^^ q)) b = _
    rw [gfMul_add_right, gfMul_add_left]
  · show gfMul cfg (gfMul cfg a b) (BitVec.twoPow 8 i) = gfMul cfg (gfMul cfg a (BitVec.twoPow 8 i)) b
    rw [gfMul_twoPow h _ i hi, gfMul_twoPow h _ i hi]
    clear hi
    induction i generalizing a with
    | zero => rfl
    | succ i ih =>
      rw [Function.iterate_succ_apply, Function.iterate_succ_apply, ← gfMul_mulX_left h, ih]

/-- Multiplication is associative when POLY has degree 8 (R106 item 4). -/
theorem gfMul_assoc (h : cfg.poly.getLsbD 8 = true) (a b c : Byte) :
    gfMul cfg (gfMul cfg a b) c = gfMul cfg a (gfMul cfg b c) := by
  rw [gfMul_comm cfg a b, gfMul_right_comm h, gfMul_comm cfg (gfMul cfg b c) a]

/-- 0x01 is the multiplicative identity (R106 item 3). -/
theorem gfMul_one (h : cfg.poly.getLsbD 8 = true) (a : Byte) : gfMul cfg a 0x01#8 = a :=
  gfMul_twoPow h a 0 (by omega)

/-- 0x01 is the multiplicative identity (R106 item 3). -/
theorem one_gfMul (h : cfg.poly.getLsbD 8 = true) (a : Byte) : gfMul cfg 0x01#8 a = a := by
  rw [gfMul_comm, gfMul_one h]

/-- 0x00 is the multiplicative zero (R106 item 3). -/
@[simp] theorem gfMul_zero (a : Byte) : gfMul cfg a 0x00#8 = 0x00#8 := (gfMul_additive_right cfg a).zero

/-- 0x00 is the multiplicative zero (R106 item 3). -/
@[simp] theorem zero_gfMul (a : Byte) : gfMul cfg 0x00#8 a = 0x00#8 := (gfMul_additive_left cfg a).zero

/-! ## Powers of GEN -/

/-- `forced` only fixes the order of evaluation. -/
@[simp] theorem forced_eq {α : Type} (p : Byte) (k : Byte → α) : forced p k = k p := by
  unfold forced
  split
  · next h => rw [show p = 0x00#8 from BitVec.eq_of_toNat_eq (by simpa using h)]
  · next n h => rw [show n + 1 = p.toNat from h.symm, BitVec.ofNat_toNat, BitVec.setWidth_eq]

theorem genSteps_succ (n : Nat) (p : Byte) :
    genSteps cfg (n + 1) p = gfMul cfg (genSteps cfg n p) cfg.gen := by
  induction n generalizing p with
  | zero => simp [genSteps]
  | succ n ih => rw [genSteps, forced_eq, ih, genSteps, forced_eq]

@[simp] theorem genPow_zero : genPow cfg 0 = 0x01#8 := rfl

/-- The recurrence of R29. -/
theorem genPow_succ (i : Nat) : genPow cfg (i + 1) = gfMul cfg (genPow cfg i) cfg.gen := genSteps_succ i _

/-- The powers of GEN add their exponents. -/
theorem genPow_add (h : cfg.poly.getLsbD 8 = true) (i j : Nat) :
    genPow cfg (i + j) = gfMul cfg (genPow cfg i) (genPow cfg j) := by
  induction j with
  | zero => rw [genPow_zero, gfMul_one h]; rfl
  | succ j ih => rw [← Nat.add_assoc, genPow_succ, ih, genPow_succ, gfMul_assoc h]

/-- EXP below entry 255 holds the powers of GEN (R29). -/
theorem expEntry_of_lt {i : Nat} (h : i < 255) : expEntry cfg i = genPow cfg i := by
  rw [expEntry, if_neg (by omega)]

/-- What a search for a logarithm finds is the first exponent with the value sought. -/
theorem logSearch_eq_some {x : Byte} {n i j : Nat} (h : logSearch cfg x n i (genPow cfg i) = some j) :
    i ≤ j ∧ j < i + n ∧ genPow cfg j = x ∧ ∀ k, i ≤ k → k < j → genPow cfg k ≠ x := by
  induction n generalizing i with
  | zero => simp [logSearch] at h
  | succ n ih =>
    rw [logSearch, forced_eq, ← genPow_succ] at h
    split at h
    · next he => obtain rfl : i = j := by simpa using h
                 exact ⟨le_rfl, by omega, he, fun k _ _ => by omega⟩
    · next hne =>
      obtain ⟨h1, h2, h3, h4⟩ := ih h
      refine ⟨by omega, by omega, h3, fun k hk hkj => ?_⟩
      rcases Nat.eq_or_lt_of_le hk with rfl | hlt
      · exact hne
      · exact h4 k hlt hkj

theorem logSearch_eq_none {x : Byte} {n i : Nat} (h : logSearch cfg x n i (genPow cfg i) = none) :
    ∀ k, i ≤ k → k < i + n → genPow cfg k ≠ x := by
  induction n generalizing i with
  | zero => intro k _ _; omega
  | succ n ih =>
    rw [logSearch, forced_eq, ← genPow_succ] at h
    split at h
    · simp at h
    · next hne =>
      intro k hk hkn
      rcases Nat.eq_or_lt_of_le hk with rfl | hlt
      · exact hne
      · exact ih h k hlt (by omega)

/-- A logarithm is an exponent below 255 of the element (R30). -/
theorem logEntry_eq_some {x : Byte} {i : Nat} (h : logEntry cfg x = some i) :
    x ≠ 0x00#8 ∧ i < 255 ∧ genPow cfg i = x := by
  unfold logEntry at h
  split at h
  · simp at h
  · next hx =>
    obtain ⟨_, h2, h3, _⟩ := logSearch_eq_some (i := 0) h
    exact ⟨hx, by omega, h3⟩

/-! ## The order of GEN -/

theorem orderSearch_eq_some {n i j : Nat} (h : orderSearch cfg n i (genPow cfg i) = some j) :
    genPow cfg j = 0x01#8 ∧ ∀ k, i ≤ k → k < j → genPow cfg k ≠ 0x01#8 := by
  induction n generalizing i with
  | zero => simp [orderSearch] at h
  | succ n ih =>
    rw [orderSearch, forced_eq, ← genPow_succ] at h
    split at h
    · next he => obtain rfl : i = j := by simpa using h
                 exact ⟨he, fun k _ _ => by omega⟩
    · next hne =>
      obtain ⟨h3, h4⟩ := ih h
      refine ⟨h3, fun k hk hkj => ?_⟩
      rcases Nat.eq_or_lt_of_le hk with rfl | hlt
      · exact hne
      · exact h4 k hlt hkj

theorem irreducible_degree {poly : PolyBits} (h : irreducible poly = true) : poly.getLsbD 8 = true := by
  simp only [irreducible, Bool.and_eq_true] at h; exact h.1

/-- POLY of a legal configuration has degree 8. -/
theorem configOk_degree (h : configOk cfg = true) : cfg.poly.getLsbD 8 = true := by
  simp only [configOk, Bool.and_eq_true] at h
  exact irreducible_degree h.1.1.1

/-- GEN of a legal configuration has order 255 (R8). -/
theorem configOk_order (h : configOk cfg = true) :
    genPow cfg 255 = 0x01#8 ∧ ∀ k, 0 < k → k < 255 → genPow cfg k ≠ 0x01#8 := by
  have hd := configOk_degree h
  simp only [configOk, Bool.and_eq_true, beq_iff_eq] at h
  have ho : orderSearch cfg 255 1 (genPow cfg 1) = some 255 := by
    rw [show genPow cfg 1 = cfg.gen by rw [genPow_succ, genPow_zero, one_gfMul hd]]; exact h.1.1.2
  exact orderSearch_eq_some ho

theorem configOk_sizes (h : configOk cfg = true) :
    (2 ≤ cfg.nc ∧ cfg.nc ≤ 255) ∧ (2 ≤ cfg.np ∧ cfg.np ≤ 255) := by
  simp only [configOk, Bool.and_eq_true, decide_eq_true_eq] at h
  exact ⟨h.1.2, h.2⟩

theorem genPow_ne_zero (h : configOk cfg = true) {i : Nat} (hi : i < 255) : genPow cfg i ≠ 0x00#8 := by
  intro h0
  have h1 := (configOk_order h).1
  rw [show 255 = i + (255 - i) by omega, genPow_add (configOk_degree h), h0, zero_gfMul] at h1
  exact absurd h1 (by decide)

/-- The powers GEN^0 to GEN^254 are distinct. -/
theorem genPow_injective (h : configOk cfg = true) {i j : Nat} (hi : i < 255) (hj : j < 255)
    (he : genPow cfg i = genPow cfg j) : i = j := by
  have key : ∀ i j, i < j → j < 255 → genPow cfg i ≠ genPow cfg j := by
    intro i j hij hj he
    obtain ⟨h1, h2⟩ := configOk_order h
    have hd := configOk_degree h
    refine h2 (j - i) (by omega) (by omega) ?_
    have h3 : genPow cfg (j + (255 - i)) = 0x01#8 := by
      rw [genPow_add hd, ← he, ← genPow_add hd, show i + (255 - i) = 255 by omega, h1]
    rwa [show j + (255 - i) = (j - i) + 255 by omega, genPow_add hd, h1, gfMul_one hd] at h3
  rcases Nat.lt_trichotomy i j with hlt | heq | hgt
  · exact absurd he (key i j hlt hj)
  · exact heq
  · exact absurd he.symm (key j i hgt hi)

/-- Every nonzero element of a legal configuration's field is a power of GEN. -/
theorem exists_genPow (h : configOk cfg = true) {x : Byte} (hx : x ≠ 0x00#8) : ∃ i < 255, genPow cfg i = x := by
  let f : Fin 255 → {v : Byte // v ≠ 0x00#8} := fun i => ⟨genPow cfg i.1, genPow_ne_zero h i.2⟩
  have hf : Function.Injective f := fun i j hij =>
    Fin.ext (genPow_injective h i.2 j.2 (congrArg Subtype.val hij))
  have hcard : Fintype.card {v : Byte // v ≠ 0x00#8} = Fintype.card (Fin 255) := by
    rw [Fintype.card_fin, Fintype.card_subtype_compl, Fintype.card_subtype_eq,
      Fintype.card_congr BitVec.equivFin.toEquiv, Fintype.card_fin]
    rfl
  obtain ⟨i, hi⟩ := ((Fintype.bijective_iff_injective_and_card f).2 ⟨hf, hcard.symm⟩).2 ⟨x, hx⟩
  exact ⟨i.1, i.2, congrArg Subtype.val hi⟩

/-- In a legal configuration every nonzero element has a logarithm (R30). -/
theorem logEntry_of_ne_zero (h : configOk cfg = true) {x : Byte} (hx : x ≠ 0x00#8) :
    ∃ i < 255, logEntry cfg x = some i ∧ genPow cfg i = x := by
  cases hl : logEntry cfg x with
  | some i => exact ⟨i, (logEntry_eq_some hl).2.1, rfl, (logEntry_eq_some hl).2.2⟩
  | none =>
    rw [logEntry, if_neg hx] at hl
    obtain ⟨i, hi, he⟩ := exists_genPow h hx
    exact absurd he (logSearch_eq_none (i := 0) hl i (by omega) (by omega))

/-- In a legal configuration division by a nonzero element has a value (R103). -/
theorem gfDiv_isSome (h : configOk cfg = true) (x : Byte) {y : Byte} (hy : y ≠ 0x00#8) :
    ∃ q, gfDiv cfg x y = some q := by
  unfold gfDiv
  rw [if_neg hy]
  split
  · exact ⟨_, rfl⟩
  · next hx =>
    obtain ⟨i, _, hi, _⟩ := logEntry_of_ne_zero h hx
    obtain ⟨j, _, hj, _⟩ := logEntry_of_ne_zero h hy
    rw [hi, hj]; exact ⟨_, rfl⟩

/-- In a legal configuration exponentiation has a value (R105). -/
theorem gfPow_isSome (h : configOk cfg = true) (x n : Byte) : ∃ q, gfPow cfg x n = some q := by
  unfold gfPow
  split
  · exact ⟨_, rfl⟩
  · split
    · exact ⟨_, rfl⟩
    · next hx =>
      obtain ⟨i, _, hi, _⟩ := logEntry_of_ne_zero h hx
      rw [hi]; exact ⟨_, rfl⟩

end Sys2Proof.Machine
end

