-- ==== Sys2Proof/Laws/Memory.lean ====
section
/-! SUPPORT. The laws of the register files: read after write, and the canonical form, which every file operation
keeps. -/

namespace Sys2Proof.Machine

variable {m : Memory} {a b low size : Nat} {v : Byte}

/-! ## Reading -/

@[simp] theorem Memory.read_nil (a : Nat) : Memory.read [] a = 0x00#8 := rfl

theorem Memory.read_erase (m : Memory) (a b : Nat) :
    Memory.read (Memory.erase m a) b = if b = a then 0x00#8 else Memory.read m b := by
  induction m with
  | nil => simp [Memory.erase]
  | cons c m ih =>
    obtain ⟨d, u⟩ := c
    simp only [Memory.erase, Memory.read]
    split
    · subst_vars; rw [ih]; split
      · rfl
      · rw [if_neg (by omega)]
    · simp only [Memory.read, ih]
      split <;> split <;> first | rfl | omega

theorem Memory.read_insert (m : Memory) (a b : Nat) (v : Byte) (h : Memory.read m a = 0x00#8)
    (hm : ∀ u, (a, u) ∉ m) :
    Memory.read (Memory.insert m a v) b = if b = a then v else Memory.read m b := by
  induction m with
  | nil => simp [Memory.insert, Memory.read, eq_comm, Memory.unlisted]
  | cons c m ih =>
    obtain ⟨d, u⟩ := c
    have hd : d ≠ a := fun e => hm u (by simp [e])
    have h' : Memory.read m a = 0x00#8 := by simpa [Memory.read, hd] using h
    have ih := ih h' (fun u hu => hm u (List.mem_cons_of_mem _ hu))
    simp only [Memory.insert]
    split
    · simp only [Memory.read, eq_comm]
    · simp only [Memory.read, ih]
      split <;> split <;> first | rfl | omega

theorem Memory.not_mem_erase (m : Memory) (a : Nat) (u : Byte) : (a, u) ∉ Memory.erase m a := by
  induction m with
  | nil => simp [Memory.erase]
  | cons c m ih =>
    obtain ⟨d, w⟩ := c
    simp only [Memory.erase]
    split
    · exact ih
    · simp only [List.mem_cons, not_or]; exact ⟨fun e => by simp_all, ih⟩

/-- Reading after a write: the value written at its index, every other entry as before. -/
theorem Memory.read_write (m : Memory) (a b : Nat) (v : Byte) :
    Memory.read (Memory.write m a v) b = if b = a then v else Memory.read m b := by
  unfold Memory.write
  split
  · subst_vars; rw [Memory.read_erase]; rfl
  · rw [Memory.read_insert _ _ _ _ (by simp [Memory.read_erase]) (Memory.not_mem_erase m a),
      Memory.read_erase]
    split <;> rfl

@[simp] theorem Memory.read_write_same (m : Memory) (a : Nat) (v : Byte) :
    Memory.read (Memory.write m a v) a = v := by simp [Memory.read_write]

theorem Memory.read_write_other (m : Memory) (h : b ≠ a) (v : Byte) :
    Memory.read (Memory.write m a v) b = Memory.read m b := by simp [Memory.read_write, h]

/-- Reading after a run of writes. -/
theorem Memory.read_writeFrom (m : Memory) (a b : Nat) (vs : List Byte) :
    Memory.read (Memory.writeFrom m a vs) b =
      if h : a ≤ b ∧ b < a + vs.length then vs[b - a] else Memory.read m b := by
  induction vs generalizing m a with
  | nil => simp [Memory.writeFrom]
  | cons v vs ih =>
    simp only [Memory.writeFrom, ih, List.length_cons, Memory.read_write]
    by_cases hb : b = a
    · subst hb; simp
    · by_cases h : a + 1 ≤ b ∧ b < a + 1 + vs.length
      · have h' : a ≤ b ∧ b < a + (vs.length + 1) := by omega
        rw [dif_pos h, dif_pos h', List.getElem_cons, dif_neg (by omega)]
        congr 1
      · rw [dif_neg h, dif_neg (by omega), if_neg hb]

@[simp] theorem Memory.take_length (m : Memory) (n : Nat) : (Memory.take m n).length = n := by
  simp [Memory.take]

theorem Memory.take_getElem (m : Memory) (n i : Nat) (h : i < (Memory.take m n).length) :
    (Memory.take m n)[i] = Memory.read m i := by simp [Memory.take]

/-- The first entries after they have all been written are what was written. -/
theorem Memory.take_writeFrom (m : Memory) (vs : List Byte) :
    Memory.take (Memory.writeFrom m 0 vs) vs.length = vs := by
  apply List.ext_getElem (by simp)
  intro i h _
  have h : i < vs.length := by simpa using h
  rw [Memory.take_getElem, Memory.read_writeFrom, dif_pos (by omega)]
  simp

/-! ## The canonical form -/

theorem Memory.wfFrom_mono {low' : Nat} (h : Memory.wfFrom low size m) (hl : low' ≤ low) :
    Memory.wfFrom low' size m := by
  cases m with
  | nil => rfl
  | cons c m => simp only [Memory.wfFrom, Bool.and_eq_true, decide_eq_true_eq] at h ⊢; exact ⟨⟨by omega, h.1.2⟩, h.2⟩

theorem Memory.wfFrom_erase (m : Memory) (low a : Nat) (h : Memory.wfFrom low size m) :
    Memory.wfFrom low size (Memory.erase m a) := by
  induction m generalizing low with
  | nil => rfl
  | cons c m ih =>
    obtain ⟨d, u⟩ := c
    simp only [Memory.wfFrom, Bool.and_eq_true, decide_eq_true_eq] at h
    simp only [Memory.erase]
    split
    · exact ih low (Memory.wfFrom_mono h.2 (by omega))
    · simp only [Memory.wfFrom, Bool.and_eq_true, decide_eq_true_eq]; exact ⟨h.1, ih _ h.2⟩

theorem Memory.wfFrom_insert (m : Memory) (low a : Nat) (v : Byte) (h : Memory.wfFrom low size m)
    (hm : ∀ u, (a, u) ∉ m) (hl : low ≤ a) (ha : a < size) (hv : v ≠ Memory.unlisted) :
    Memory.wfFrom low size (Memory.insert m a v) := by
  induction m generalizing low with
  | nil => simp [Memory.insert, Memory.wfFrom, hl, ha, hv]
  | cons c m ih =>
    obtain ⟨d, u⟩ := c
    simp only [Memory.wfFrom, Bool.and_eq_true, decide_eq_true_eq] at h
    have hd : d ≠ a := fun e => hm u (by simp [e])
    simp only [Memory.insert]
    split
    · simp only [Memory.wfFrom, Bool.and_eq_true, decide_eq_true_eq]
      exact ⟨⟨by omega, by simpa using hv⟩, ⟨⟨by omega, h.1.2⟩, h.2⟩⟩
    · simp only [Memory.wfFrom, Bool.and_eq_true, decide_eq_true_eq]
      exact ⟨h.1, ih _ h.2 (fun u hu => hm u (List.mem_cons_of_mem _ hu)) (by omega)⟩

@[simp] theorem Memory.wf_nil (size : Nat) : Memory.wf size [] = true := rfl

/-- A write inside the file keeps the canonical form. -/
theorem Memory.wf_write (h : Memory.wf size m) (ha : a < size) (v : Byte) :
    Memory.wf size (Memory.write m a v) := by
  unfold Memory.wf Memory.write at *
  split
  · exact Memory.wfFrom_erase m 0 a h
  · exact Memory.wfFrom_insert _ 0 a v (Memory.wfFrom_erase m 0 a h) (Memory.not_mem_erase m a) (by omega) ha ‹_›

/-- A run of writes inside the file keeps the canonical form. -/
theorem Memory.wf_writeFrom (h : Memory.wf size m) (vs : List Byte) (ha : a + vs.length ≤ size) :
    Memory.wf size (Memory.writeFrom m a vs) := by
  induction vs generalizing m a with
  | nil => exact h
  | cons v vs ih =>
    simp only [List.length_cons] at ha
    exact ih (Memory.wf_write h (by omega) v) (by omega)

/-- The files hold nothing at reset, which is the canonical form. -/
theorem State.reset_files_wf : Memory.wf 255 State.reset.c ∧ Memory.wf 255 State.reset.x ∧
    Memory.wf 255 State.reset.y ∧ Memory.wf 255 State.reset.w := by decide

/-- Nothing is listed below where the canonical form starts. -/
theorem Memory.read_below (m : Memory) (low i : Nat) (h : Memory.wfFrom low size m) (hi : i < low) :
    Memory.read m i = 0x00#8 := by
  induction m generalizing low with
  | nil => rfl
  | cons c m ih =>
    simp only [Memory.wfFrom, Bool.and_eq_true, decide_eq_true_eq] at h
    rw [Memory.read, if_neg (by omega)]
    exact ih _ h.2 (by omega)

/-- Canonical files with the same entries are the same list. -/
theorem Memory.eq_of_read_eq {m m' : Memory} {low : Nat} (h : Memory.wfFrom low size m)
    (h' : Memory.wfFrom low size m') (hr : ∀ i, low ≤ i → Memory.read m i = Memory.read m' i) : m = m' := by
  induction m generalizing m' low with
  | nil =>
    cases m' with
    | nil => rfl
    | cons c m' =>
      simp only [Memory.wfFrom, Bool.and_eq_true, decide_eq_true_eq, bne_iff_ne] at h'
      have := hr c.1 (by omega)
      exact absurd (by simpa [Memory.read] using this.symm) h'.1.2
  | cons c m ih =>
    simp only [Memory.wfFrom, Bool.and_eq_true, decide_eq_true_eq, bne_iff_ne] at h
    cases m' with
    | nil => exact absurd (by simpa [Memory.read] using hr c.1 (by omega)) h.1.2
    | cons c' m' =>
      simp only [Memory.wfFrom, Bool.and_eq_true, decide_eq_true_eq, bne_iff_ne] at h'
      have heq : c.1 = c'.1 := by
        by_contra hne
        rcases Nat.lt_or_gt_of_ne hne with hlt | hlt
        · have := hr c.1 (by omega)
          rw [Memory.read, if_pos rfl, Memory.read, if_neg (by omega), Memory.read_below m' _ _ h'.2 (by omega)] at this
          exact h.1.2 this
        · have := hr c'.1 (by omega)
          rw [Memory.read, if_neg (by omega), Memory.read_below m _ _ h.2 (by omega), Memory.read, if_pos rfl] at this
          exact h'.1.2 this.symm
      have hv : c.2 = c'.2 := by simpa [Memory.read, heq] using hr c.1 (by omega)
      have ht : m = m' := ih h.2 (by rw [heq]; exact h'.2) (fun i hi => by
        have := hr i (by omega)
        rwa [Memory.read, if_neg (by omega), Memory.read, if_neg (by omega)] at this)
      rw [ht, show c = c' from Prod.ext heq hv]

end Sys2Proof.Machine
end

