-- ==== Sys2Proof/Laws/State.lean ====
section
/-! SUPPORT. What each update of the state leaves in each field: true by definition, one lemma for each field and
update, so that no proof unfolds a record update. -/

namespace Sys2Proof.Machine

/-! ## setR -/

@[simp] theorem State.setR_r (s : State) (v : Byte) : (s.setR v).r = v := rfl
@[simp] theorem State.setR_t (s : State) (v : Byte) : (s.setR v).t = s.t := rfl
@[simp] theorem State.setR_k (s : State) (v : Byte) : (s.setR v).k = s.k := rfl
@[simp] theorem State.setR_c (s : State) (v : Byte) : (s.setR v).c = s.c := rfl
@[simp] theorem State.setR_x (s : State) (v : Byte) : (s.setR v).x = s.x := rfl
@[simp] theorem State.setR_y (s : State) (v : Byte) : (s.setR v).y = s.y := rfl
@[simp] theorem State.setR_w (s : State) (v : Byte) : (s.setR v).w = s.w := rfl
@[simp] theorem State.setR_wvalid (s : State) (v : Byte) : (s.setR v).wvalid = s.wvalid := rfl
@[simp] theorem State.setR_ready (s : State) (v : Byte) : (s.setR v).ready = s.ready := rfl
@[simp] theorem State.setR_pending (s : State) (v : Byte) : (s.setR v).pending = s.pending := rfl
@[simp] theorem State.setR_done (s : State) (v : Byte) : (s.setR v).done = s.done := rfl
@[simp] theorem State.setR_ieDone (s : State) (v : Byte) : (s.setR v).ieDone = s.ieDone := rfl
@[simp] theorem State.setR_ieErr (s : State) (v : Byte) : (s.setR v).ieErr = s.ieErr := rfl
@[simp] theorem State.setR_err (s : State) (v : Byte) : (s.setR v).err = s.err := rfl
@[simp] theorem State.setR_cfg (s : State) (v : Byte) : (s.setR v).cfg = s.cfg := rfl
@[simp] theorem State.setR_agenda (s : State) (v : Byte) : (s.setR v).agenda = s.agenda := rfl
@[simp] theorem State.setR_replies (s : State) (v : Byte) : (s.setR v).replies = s.replies := rfl

/-! ## setT -/

@[simp] theorem State.setT_r (s : State) (v : Byte) : (s.setT v).r = s.r := rfl
@[simp] theorem State.setT_t (s : State) (v : Byte) : (s.setT v).t = v := rfl
@[simp] theorem State.setT_k (s : State) (v : Byte) : (s.setT v).k = s.k := rfl
@[simp] theorem State.setT_c (s : State) (v : Byte) : (s.setT v).c = s.c := rfl
@[simp] theorem State.setT_x (s : State) (v : Byte) : (s.setT v).x = s.x := rfl
@[simp] theorem State.setT_y (s : State) (v : Byte) : (s.setT v).y = s.y := rfl
@[simp] theorem State.setT_w (s : State) (v : Byte) : (s.setT v).w = s.w := rfl
@[simp] theorem State.setT_wvalid (s : State) (v : Byte) : (s.setT v).wvalid = s.wvalid := rfl
@[simp] theorem State.setT_ready (s : State) (v : Byte) : (s.setT v).ready = s.ready := rfl
@[simp] theorem State.setT_pending (s : State) (v : Byte) : (s.setT v).pending = s.pending := rfl
@[simp] theorem State.setT_done (s : State) (v : Byte) : (s.setT v).done = s.done := rfl
@[simp] theorem State.setT_ieDone (s : State) (v : Byte) : (s.setT v).ieDone = s.ieDone := rfl
@[simp] theorem State.setT_ieErr (s : State) (v : Byte) : (s.setT v).ieErr = s.ieErr := rfl
@[simp] theorem State.setT_err (s : State) (v : Byte) : (s.setT v).err = s.err := rfl
@[simp] theorem State.setT_cfg (s : State) (v : Byte) : (s.setT v).cfg = s.cfg := rfl
@[simp] theorem State.setT_agenda (s : State) (v : Byte) : (s.setT v).agenda = s.agenda := rfl
@[simp] theorem State.setT_replies (s : State) (v : Byte) : (s.setT v).replies = s.replies := rfl

/-! ## setK -/

@[simp] theorem State.setK_r (s : State) (v : Byte) : (s.setK v).r = s.r := rfl
@[simp] theorem State.setK_t (s : State) (v : Byte) : (s.setK v).t = s.t := rfl
@[simp] theorem State.setK_k (s : State) (v : Byte) : (s.setK v).k = v := rfl
@[simp] theorem State.setK_c (s : State) (v : Byte) : (s.setK v).c = s.c := rfl
@[simp] theorem State.setK_x (s : State) (v : Byte) : (s.setK v).x = s.x := rfl
@[simp] theorem State.setK_y (s : State) (v : Byte) : (s.setK v).y = s.y := rfl
@[simp] theorem State.setK_w (s : State) (v : Byte) : (s.setK v).w = s.w := rfl
@[simp] theorem State.setK_wvalid (s : State) (v : Byte) : (s.setK v).wvalid = s.wvalid := rfl
@[simp] theorem State.setK_ready (s : State) (v : Byte) : (s.setK v).ready = s.ready := rfl
@[simp] theorem State.setK_pending (s : State) (v : Byte) : (s.setK v).pending = s.pending := rfl
@[simp] theorem State.setK_done (s : State) (v : Byte) : (s.setK v).done = s.done := rfl
@[simp] theorem State.setK_ieDone (s : State) (v : Byte) : (s.setK v).ieDone = s.ieDone := rfl
@[simp] theorem State.setK_ieErr (s : State) (v : Byte) : (s.setK v).ieErr = s.ieErr := rfl
@[simp] theorem State.setK_err (s : State) (v : Byte) : (s.setK v).err = s.err := rfl
@[simp] theorem State.setK_cfg (s : State) (v : Byte) : (s.setK v).cfg = s.cfg := rfl
@[simp] theorem State.setK_agenda (s : State) (v : Byte) : (s.setK v).agenda = s.agenda := rfl
@[simp] theorem State.setK_replies (s : State) (v : Byte) : (s.setK v).replies = s.replies := rfl

/-! ## setWvalid -/

@[simp] theorem State.setWvalid_r (s : State) (v : Bool) : (s.setWvalid v).r = s.r := rfl
@[simp] theorem State.setWvalid_t (s : State) (v : Bool) : (s.setWvalid v).t = s.t := rfl
@[simp] theorem State.setWvalid_k (s : State) (v : Bool) : (s.setWvalid v).k = s.k := rfl
@[simp] theorem State.setWvalid_c (s : State) (v : Bool) : (s.setWvalid v).c = s.c := rfl
@[simp] theorem State.setWvalid_x (s : State) (v : Bool) : (s.setWvalid v).x = s.x := rfl
@[simp] theorem State.setWvalid_y (s : State) (v : Bool) : (s.setWvalid v).y = s.y := rfl
@[simp] theorem State.setWvalid_w (s : State) (v : Bool) : (s.setWvalid v).w = s.w := rfl
@[simp] theorem State.setWvalid_wvalid (s : State) (v : Bool) : (s.setWvalid v).wvalid = v := rfl
@[simp] theorem State.setWvalid_ready (s : State) (v : Bool) : (s.setWvalid v).ready = s.ready := rfl
@[simp] theorem State.setWvalid_pending (s : State) (v : Bool) : (s.setWvalid v).pending = s.pending := rfl
@[simp] theorem State.setWvalid_done (s : State) (v : Bool) : (s.setWvalid v).done = s.done := rfl
@[simp] theorem State.setWvalid_ieDone (s : State) (v : Bool) : (s.setWvalid v).ieDone = s.ieDone := rfl
@[simp] theorem State.setWvalid_ieErr (s : State) (v : Bool) : (s.setWvalid v).ieErr = s.ieErr := rfl
@[simp] theorem State.setWvalid_err (s : State) (v : Bool) : (s.setWvalid v).err = s.err := rfl
@[simp] theorem State.setWvalid_cfg (s : State) (v : Bool) : (s.setWvalid v).cfg = s.cfg := rfl
@[simp] theorem State.setWvalid_agenda (s : State) (v : Bool) : (s.setWvalid v).agenda = s.agenda := rfl
@[simp] theorem State.setWvalid_replies (s : State) (v : Bool) : (s.setWvalid v).replies = s.replies := rfl

/-! ## setC -/

@[simp] theorem State.setC_r (s : State) (m : Memory) : (s.setC m).r = s.r := rfl
@[simp] theorem State.setC_t (s : State) (m : Memory) : (s.setC m).t = s.t := rfl
@[simp] theorem State.setC_k (s : State) (m : Memory) : (s.setC m).k = s.k := rfl
@[simp] theorem State.setC_c (s : State) (m : Memory) : (s.setC m).c = m := rfl
@[simp] theorem State.setC_x (s : State) (m : Memory) : (s.setC m).x = s.x := rfl
@[simp] theorem State.setC_y (s : State) (m : Memory) : (s.setC m).y = s.y := rfl
@[simp] theorem State.setC_w (s : State) (m : Memory) : (s.setC m).w = s.w := rfl
@[simp] theorem State.setC_wvalid (s : State) (m : Memory) : (s.setC m).wvalid = s.wvalid := rfl
@[simp] theorem State.setC_ready (s : State) (m : Memory) : (s.setC m).ready = s.ready := rfl
@[simp] theorem State.setC_pending (s : State) (m : Memory) : (s.setC m).pending = s.pending := rfl
@[simp] theorem State.setC_done (s : State) (m : Memory) : (s.setC m).done = s.done := rfl
@[simp] theorem State.setC_ieDone (s : State) (m : Memory) : (s.setC m).ieDone = s.ieDone := rfl
@[simp] theorem State.setC_ieErr (s : State) (m : Memory) : (s.setC m).ieErr = s.ieErr := rfl
@[simp] theorem State.setC_err (s : State) (m : Memory) : (s.setC m).err = s.err := rfl
@[simp] theorem State.setC_cfg (s : State) (m : Memory) : (s.setC m).cfg = s.cfg := rfl
@[simp] theorem State.setC_agenda (s : State) (m : Memory) : (s.setC m).agenda = s.agenda := rfl
@[simp] theorem State.setC_replies (s : State) (m : Memory) : (s.setC m).replies = s.replies := rfl

/-! ## setX -/

@[simp] theorem State.setX_r (s : State) (m : Memory) : (s.setX m).r = s.r := rfl
@[simp] theorem State.setX_t (s : State) (m : Memory) : (s.setX m).t = s.t := rfl
@[simp] theorem State.setX_k (s : State) (m : Memory) : (s.setX m).k = s.k := rfl
@[simp] theorem State.setX_c (s : State) (m : Memory) : (s.setX m).c = s.c := rfl
@[simp] theorem State.setX_x (s : State) (m : Memory) : (s.setX m).x = m := rfl
@[simp] theorem State.setX_y (s : State) (m : Memory) : (s.setX m).y = s.y := rfl
@[simp] theorem State.setX_w (s : State) (m : Memory) : (s.setX m).w = s.w := rfl
@[simp] theorem State.setX_wvalid (s : State) (m : Memory) : (s.setX m).wvalid = s.wvalid := rfl
@[simp] theorem State.setX_ready (s : State) (m : Memory) : (s.setX m).ready = s.ready := rfl
@[simp] theorem State.setX_pending (s : State) (m : Memory) : (s.setX m).pending = s.pending := rfl
@[simp] theorem State.setX_done (s : State) (m : Memory) : (s.setX m).done = s.done := rfl
@[simp] theorem State.setX_ieDone (s : State) (m : Memory) : (s.setX m).ieDone = s.ieDone := rfl
@[simp] theorem State.setX_ieErr (s : State) (m : Memory) : (s.setX m).ieErr = s.ieErr := rfl
@[simp] theorem State.setX_err (s : State) (m : Memory) : (s.setX m).err = s.err := rfl
@[simp] theorem State.setX_cfg (s : State) (m : Memory) : (s.setX m).cfg = s.cfg := rfl
@[simp] theorem State.setX_agenda (s : State) (m : Memory) : (s.setX m).agenda = s.agenda := rfl
@[simp] theorem State.setX_replies (s : State) (m : Memory) : (s.setX m).replies = s.replies := rfl

/-! ## setY -/

@[simp] theorem State.setY_r (s : State) (m : Memory) : (s.setY m).r = s.r := rfl
@[simp] theorem State.setY_t (s : State) (m : Memory) : (s.setY m).t = s.t := rfl
@[simp] theorem State.setY_k (s : State) (m : Memory) : (s.setY m).k = s.k := rfl
@[simp] theorem State.setY_c (s : State) (m : Memory) : (s.setY m).c = s.c := rfl
@[simp] theorem State.setY_x (s : State) (m : Memory) : (s.setY m).x = s.x := rfl
@[simp] theorem State.setY_y (s : State) (m : Memory) : (s.setY m).y = m := rfl
@[simp] theorem State.setY_w (s : State) (m : Memory) : (s.setY m).w = s.w := rfl
@[simp] theorem State.setY_wvalid (s : State) (m : Memory) : (s.setY m).wvalid = s.wvalid := rfl
@[simp] theorem State.setY_ready (s : State) (m : Memory) : (s.setY m).ready = s.ready := rfl
@[simp] theorem State.setY_pending (s : State) (m : Memory) : (s.setY m).pending = s.pending := rfl
@[simp] theorem State.setY_done (s : State) (m : Memory) : (s.setY m).done = s.done := rfl
@[simp] theorem State.setY_ieDone (s : State) (m : Memory) : (s.setY m).ieDone = s.ieDone := rfl
@[simp] theorem State.setY_ieErr (s : State) (m : Memory) : (s.setY m).ieErr = s.ieErr := rfl
@[simp] theorem State.setY_err (s : State) (m : Memory) : (s.setY m).err = s.err := rfl
@[simp] theorem State.setY_cfg (s : State) (m : Memory) : (s.setY m).cfg = s.cfg := rfl
@[simp] theorem State.setY_agenda (s : State) (m : Memory) : (s.setY m).agenda = s.agenda := rfl
@[simp] theorem State.setY_replies (s : State) (m : Memory) : (s.setY m).replies = s.replies := rfl

/-! ## setW -/

@[simp] theorem State.setW_r (s : State) (m : Memory) : (s.setW m).r = s.r := rfl
@[simp] theorem State.setW_t (s : State) (m : Memory) : (s.setW m).t = s.t := rfl
@[simp] theorem State.setW_k (s : State) (m : Memory) : (s.setW m).k = s.k := rfl
@[simp] theorem State.setW_c (s : State) (m : Memory) : (s.setW m).c = s.c := rfl
@[simp] theorem State.setW_x (s : State) (m : Memory) : (s.setW m).x = s.x := rfl
@[simp] theorem State.setW_y (s : State) (m : Memory) : (s.setW m).y = s.y := rfl
@[simp] theorem State.setW_w (s : State) (m : Memory) : (s.setW m).w = m := rfl
@[simp] theorem State.setW_wvalid (s : State) (m : Memory) : (s.setW m).wvalid = s.wvalid := rfl
@[simp] theorem State.setW_ready (s : State) (m : Memory) : (s.setW m).ready = s.ready := rfl
@[simp] theorem State.setW_pending (s : State) (m : Memory) : (s.setW m).pending = s.pending := rfl
@[simp] theorem State.setW_done (s : State) (m : Memory) : (s.setW m).done = s.done := rfl
@[simp] theorem State.setW_ieDone (s : State) (m : Memory) : (s.setW m).ieDone = s.ieDone := rfl
@[simp] theorem State.setW_ieErr (s : State) (m : Memory) : (s.setW m).ieErr = s.ieErr := rfl
@[simp] theorem State.setW_err (s : State) (m : Memory) : (s.setW m).err = s.err := rfl
@[simp] theorem State.setW_cfg (s : State) (m : Memory) : (s.setW m).cfg = s.cfg := rfl
@[simp] theorem State.setW_agenda (s : State) (m : Memory) : (s.setW m).agenda = s.agenda := rfl
@[simp] theorem State.setW_replies (s : State) (m : Memory) : (s.setW m).replies = s.replies := rfl

/-! ## setPending -/

@[simp] theorem State.setPending_r (s : State) (p : Option Word) : (s.setPending p).r = s.r := rfl
@[simp] theorem State.setPending_t (s : State) (p : Option Word) : (s.setPending p).t = s.t := rfl
@[simp] theorem State.setPending_k (s : State) (p : Option Word) : (s.setPending p).k = s.k := rfl
@[simp] theorem State.setPending_c (s : State) (p : Option Word) : (s.setPending p).c = s.c := rfl
@[simp] theorem State.setPending_x (s : State) (p : Option Word) : (s.setPending p).x = s.x := rfl
@[simp] theorem State.setPending_y (s : State) (p : Option Word) : (s.setPending p).y = s.y := rfl
@[simp] theorem State.setPending_w (s : State) (p : Option Word) : (s.setPending p).w = s.w := rfl
@[simp] theorem State.setPending_wvalid (s : State) (p : Option Word) : (s.setPending p).wvalid = s.wvalid := rfl
@[simp] theorem State.setPending_ready (s : State) (p : Option Word) : (s.setPending p).ready = s.ready := rfl
@[simp] theorem State.setPending_pending (s : State) (p : Option Word) : (s.setPending p).pending = p := rfl
@[simp] theorem State.setPending_done (s : State) (p : Option Word) : (s.setPending p).done = s.done := rfl
@[simp] theorem State.setPending_ieDone (s : State) (p : Option Word) : (s.setPending p).ieDone = s.ieDone := rfl
@[simp] theorem State.setPending_ieErr (s : State) (p : Option Word) : (s.setPending p).ieErr = s.ieErr := rfl
@[simp] theorem State.setPending_err (s : State) (p : Option Word) : (s.setPending p).err = s.err := rfl
@[simp] theorem State.setPending_cfg (s : State) (p : Option Word) : (s.setPending p).cfg = s.cfg := rfl
@[simp] theorem State.setPending_agenda (s : State) (p : Option Word) : (s.setPending p).agenda = s.agenda := rfl
@[simp] theorem State.setPending_replies (s : State) (p : Option Word) : (s.setPending p).replies = s.replies := rfl

/-! ## setDone -/

@[simp] theorem State.setDone_r (s : State) (v : Bool) : (s.setDone v).r = s.r := rfl
@[simp] theorem State.setDone_t (s : State) (v : Bool) : (s.setDone v).t = s.t := rfl
@[simp] theorem State.setDone_k (s : State) (v : Bool) : (s.setDone v).k = s.k := rfl
@[simp] theorem State.setDone_c (s : State) (v : Bool) : (s.setDone v).c = s.c := rfl
@[simp] theorem State.setDone_x (s : State) (v : Bool) : (s.setDone v).x = s.x := rfl
@[simp] theorem State.setDone_y (s : State) (v : Bool) : (s.setDone v).y = s.y := rfl
@[simp] theorem State.setDone_w (s : State) (v : Bool) : (s.setDone v).w = s.w := rfl
@[simp] theorem State.setDone_wvalid (s : State) (v : Bool) : (s.setDone v).wvalid = s.wvalid := rfl
@[simp] theorem State.setDone_ready (s : State) (v : Bool) : (s.setDone v).ready = s.ready := rfl
@[simp] theorem State.setDone_pending (s : State) (v : Bool) : (s.setDone v).pending = s.pending := rfl
@[simp] theorem State.setDone_done (s : State) (v : Bool) : (s.setDone v).done = v := rfl
@[simp] theorem State.setDone_ieDone (s : State) (v : Bool) : (s.setDone v).ieDone = s.ieDone := rfl
@[simp] theorem State.setDone_ieErr (s : State) (v : Bool) : (s.setDone v).ieErr = s.ieErr := rfl
@[simp] theorem State.setDone_err (s : State) (v : Bool) : (s.setDone v).err = s.err := rfl
@[simp] theorem State.setDone_cfg (s : State) (v : Bool) : (s.setDone v).cfg = s.cfg := rfl
@[simp] theorem State.setDone_agenda (s : State) (v : Bool) : (s.setDone v).agenda = s.agenda := rfl
@[simp] theorem State.setDone_replies (s : State) (v : Bool) : (s.setDone v).replies = s.replies := rfl

/-! ## setErr -/

@[simp] theorem State.setErr_r (s : State) (e : ErrorRecord) : (s.setErr e).r = s.r := rfl
@[simp] theorem State.setErr_t (s : State) (e : ErrorRecord) : (s.setErr e).t = s.t := rfl
@[simp] theorem State.setErr_k (s : State) (e : ErrorRecord) : (s.setErr e).k = s.k := rfl
@[simp] theorem State.setErr_c (s : State) (e : ErrorRecord) : (s.setErr e).c = s.c := rfl
@[simp] theorem State.setErr_x (s : State) (e : ErrorRecord) : (s.setErr e).x = s.x := rfl
@[simp] theorem State.setErr_y (s : State) (e : ErrorRecord) : (s.setErr e).y = s.y := rfl
@[simp] theorem State.setErr_w (s : State) (e : ErrorRecord) : (s.setErr e).w = s.w := rfl
@[simp] theorem State.setErr_wvalid (s : State) (e : ErrorRecord) : (s.setErr e).wvalid = s.wvalid := rfl
@[simp] theorem State.setErr_ready (s : State) (e : ErrorRecord) : (s.setErr e).ready = s.ready := rfl
@[simp] theorem State.setErr_pending (s : State) (e : ErrorRecord) : (s.setErr e).pending = s.pending := rfl
@[simp] theorem State.setErr_done (s : State) (e : ErrorRecord) : (s.setErr e).done = s.done := rfl
@[simp] theorem State.setErr_ieDone (s : State) (e : ErrorRecord) : (s.setErr e).ieDone = s.ieDone := rfl
@[simp] theorem State.setErr_ieErr (s : State) (e : ErrorRecord) : (s.setErr e).ieErr = s.ieErr := rfl
@[simp] theorem State.setErr_err (s : State) (e : ErrorRecord) : (s.setErr e).err = e := rfl
@[simp] theorem State.setErr_cfg (s : State) (e : ErrorRecord) : (s.setErr e).cfg = s.cfg := rfl
@[simp] theorem State.setErr_agenda (s : State) (e : ErrorRecord) : (s.setErr e).agenda = s.agenda := rfl
@[simp] theorem State.setErr_replies (s : State) (e : ErrorRecord) : (s.setErr e).replies = s.replies := rfl

/-! ## setAgenda -/

@[simp] theorem State.setAgenda_r (s : State) (ts : List Turn) : (s.setAgenda ts).r = s.r := rfl
@[simp] theorem State.setAgenda_t (s : State) (ts : List Turn) : (s.setAgenda ts).t = s.t := rfl
@[simp] theorem State.setAgenda_k (s : State) (ts : List Turn) : (s.setAgenda ts).k = s.k := rfl
@[simp] theorem State.setAgenda_c (s : State) (ts : List Turn) : (s.setAgenda ts).c = s.c := rfl
@[simp] theorem State.setAgenda_x (s : State) (ts : List Turn) : (s.setAgenda ts).x = s.x := rfl
@[simp] theorem State.setAgenda_y (s : State) (ts : List Turn) : (s.setAgenda ts).y = s.y := rfl
@[simp] theorem State.setAgenda_w (s : State) (ts : List Turn) : (s.setAgenda ts).w = s.w := rfl
@[simp] theorem State.setAgenda_wvalid (s : State) (ts : List Turn) : (s.setAgenda ts).wvalid = s.wvalid := rfl
@[simp] theorem State.setAgenda_ready (s : State) (ts : List Turn) : (s.setAgenda ts).ready = s.ready := rfl
@[simp] theorem State.setAgenda_pending (s : State) (ts : List Turn) : (s.setAgenda ts).pending = s.pending := rfl
@[simp] theorem State.setAgenda_done (s : State) (ts : List Turn) : (s.setAgenda ts).done = s.done := rfl
@[simp] theorem State.setAgenda_ieDone (s : State) (ts : List Turn) : (s.setAgenda ts).ieDone = s.ieDone := rfl
@[simp] theorem State.setAgenda_ieErr (s : State) (ts : List Turn) : (s.setAgenda ts).ieErr = s.ieErr := rfl
@[simp] theorem State.setAgenda_err (s : State) (ts : List Turn) : (s.setAgenda ts).err = s.err := rfl
@[simp] theorem State.setAgenda_cfg (s : State) (ts : List Turn) : (s.setAgenda ts).cfg = s.cfg := rfl
@[simp] theorem State.setAgenda_agenda (s : State) (ts : List Turn) : (s.setAgenda ts).agenda = ts := rfl
@[simp] theorem State.setAgenda_replies (s : State) (ts : List Turn) : (s.setAgenda ts).replies = s.replies := rfl

/-! ## complete -/

@[simp] theorem State.complete_r (s : State) : (s.complete).r = s.r := rfl
@[simp] theorem State.complete_t (s : State) : (s.complete).t = s.t := rfl
@[simp] theorem State.complete_k (s : State) : (s.complete).k = s.k := rfl
@[simp] theorem State.complete_c (s : State) : (s.complete).c = s.c := rfl
@[simp] theorem State.complete_x (s : State) : (s.complete).x = s.x := rfl
@[simp] theorem State.complete_y (s : State) : (s.complete).y = s.y := rfl
@[simp] theorem State.complete_w (s : State) : (s.complete).w = s.w := rfl
@[simp] theorem State.complete_wvalid (s : State) : (s.complete).wvalid = s.wvalid := rfl
@[simp] theorem State.complete_ready (s : State) : (s.complete).ready = s.ready := rfl
@[simp] theorem State.complete_pending (s : State) : (s.complete).pending = none := rfl
@[simp] theorem State.complete_done (s : State) : (s.complete).done = true := rfl
@[simp] theorem State.complete_ieDone (s : State) : (s.complete).ieDone = s.ieDone := rfl
@[simp] theorem State.complete_ieErr (s : State) : (s.complete).ieErr = s.ieErr := rfl
@[simp] theorem State.complete_err (s : State) : (s.complete).err = s.err := rfl
@[simp] theorem State.complete_cfg (s : State) : (s.complete).cfg = s.cfg := rfl
@[simp] theorem State.complete_agenda (s : State) : (s.complete).agenda = s.agenda := rfl
@[simp] theorem State.complete_replies (s : State) : (s.complete).replies = s.replies := rfl

/-! ## raise -/

@[simp] theorem State.raise_r (s : State) (opc : Byte) (kind : ErrorKind) (info : Byte) : (s.raise opc kind info).r = s.r := rfl
@[simp] theorem State.raise_t (s : State) (opc : Byte) (kind : ErrorKind) (info : Byte) : (s.raise opc kind info).t = s.t := rfl
@[simp] theorem State.raise_k (s : State) (opc : Byte) (kind : ErrorKind) (info : Byte) : (s.raise opc kind info).k = s.k := rfl
@[simp] theorem State.raise_c (s : State) (opc : Byte) (kind : ErrorKind) (info : Byte) : (s.raise opc kind info).c = s.c := rfl
@[simp] theorem State.raise_x (s : State) (opc : Byte) (kind : ErrorKind) (info : Byte) : (s.raise opc kind info).x = s.x := rfl
@[simp] theorem State.raise_y (s : State) (opc : Byte) (kind : ErrorKind) (info : Byte) : (s.raise opc kind info).y = s.y := rfl
@[simp] theorem State.raise_w (s : State) (opc : Byte) (kind : ErrorKind) (info : Byte) : (s.raise opc kind info).w = s.w := rfl
@[simp] theorem State.raise_wvalid (s : State) (opc : Byte) (kind : ErrorKind) (info : Byte) : (s.raise opc kind info).wvalid = s.wvalid := rfl
@[simp] theorem State.raise_ready (s : State) (opc : Byte) (kind : ErrorKind) (info : Byte) : (s.raise opc kind info).ready = s.ready := rfl
@[simp] theorem State.raise_pending (s : State) (opc : Byte) (kind : ErrorKind) (info : Byte) : (s.raise opc kind info).pending = none := rfl
@[simp] theorem State.raise_done (s : State) (opc : Byte) (kind : ErrorKind) (info : Byte) : (s.raise opc kind info).done = s.done := rfl
@[simp] theorem State.raise_ieDone (s : State) (opc : Byte) (kind : ErrorKind) (info : Byte) : (s.raise opc kind info).ieDone = s.ieDone := rfl
@[simp] theorem State.raise_ieErr (s : State) (opc : Byte) (kind : ErrorKind) (info : Byte) : (s.raise opc kind info).ieErr = s.ieErr := rfl
@[simp] theorem State.raise_err (s : State) (opc : Byte) (kind : ErrorKind) (info : Byte) : (s.raise opc kind info).err = s.err.record kind opc info := rfl
@[simp] theorem State.raise_cfg (s : State) (opc : Byte) (kind : ErrorKind) (info : Byte) : (s.raise opc kind info).cfg = s.cfg := rfl
@[simp] theorem State.raise_agenda (s : State) (opc : Byte) (kind : ErrorKind) (info : Byte) : (s.raise opc kind info).agenda = s.agenda := rfl
@[simp] theorem State.raise_replies (s : State) (opc : Byte) (kind : ErrorKind) (info : Byte) : (s.raise opc kind info).replies = s.replies := rfl

/-! ## clearError -/

@[simp] theorem State.clearError_r (s : State) : (s.clearError).r = s.r := rfl
@[simp] theorem State.clearError_t (s : State) : (s.clearError).t = s.t := rfl
@[simp] theorem State.clearError_k (s : State) : (s.clearError).k = s.k := rfl
@[simp] theorem State.clearError_c (s : State) : (s.clearError).c = s.c := rfl
@[simp] theorem State.clearError_x (s : State) : (s.clearError).x = s.x := rfl
@[simp] theorem State.clearError_y (s : State) : (s.clearError).y = s.y := rfl
@[simp] theorem State.clearError_w (s : State) : (s.clearError).w = s.w := rfl
@[simp] theorem State.clearError_wvalid (s : State) : (s.clearError).wvalid = s.wvalid := rfl
@[simp] theorem State.clearError_ready (s : State) : (s.clearError).ready = s.ready := rfl
@[simp] theorem State.clearError_pending (s : State) : (s.clearError).pending = s.pending := rfl
@[simp] theorem State.clearError_done (s : State) : (s.clearError).done = s.done := rfl
@[simp] theorem State.clearError_ieDone (s : State) : (s.clearError).ieDone = s.ieDone := rfl
@[simp] theorem State.clearError_ieErr (s : State) : (s.clearError).ieErr = s.ieErr := rfl
@[simp] theorem State.clearError_err (s : State) : (s.clearError).err = ErrorRecord.clear := rfl
@[simp] theorem State.clearError_cfg (s : State) : (s.clearError).cfg = s.cfg := rfl
@[simp] theorem State.clearError_agenda (s : State) : (s.clearError).agenda = s.agenda := rfl
@[simp] theorem State.clearError_replies (s : State) : (s.clearError).replies = s.replies := rfl

/-! ## becomeReady -/

@[simp] theorem State.becomeReady_r (s : State) : (s.becomeReady).r = s.r := rfl
@[simp] theorem State.becomeReady_t (s : State) : (s.becomeReady).t = s.t := rfl
@[simp] theorem State.becomeReady_k (s : State) : (s.becomeReady).k = s.k := rfl
@[simp] theorem State.becomeReady_c (s : State) : (s.becomeReady).c = s.c := rfl
@[simp] theorem State.becomeReady_x (s : State) : (s.becomeReady).x = s.x := rfl
@[simp] theorem State.becomeReady_y (s : State) : (s.becomeReady).y = s.y := rfl
@[simp] theorem State.becomeReady_w (s : State) : (s.becomeReady).w = s.w := rfl
@[simp] theorem State.becomeReady_wvalid (s : State) : (s.becomeReady).wvalid = s.wvalid := rfl
@[simp] theorem State.becomeReady_ready (s : State) : (s.becomeReady).ready = true := rfl
@[simp] theorem State.becomeReady_pending (s : State) : (s.becomeReady).pending = s.pending := rfl
@[simp] theorem State.becomeReady_done (s : State) : (s.becomeReady).done = s.done := rfl
@[simp] theorem State.becomeReady_ieDone (s : State) : (s.becomeReady).ieDone = s.ieDone := rfl
@[simp] theorem State.becomeReady_ieErr (s : State) : (s.becomeReady).ieErr = s.ieErr := rfl
@[simp] theorem State.becomeReady_err (s : State) : (s.becomeReady).err = s.err := rfl
@[simp] theorem State.becomeReady_cfg (s : State) : (s.becomeReady).cfg = s.cfg := rfl
@[simp] theorem State.becomeReady_agenda (s : State) : (s.becomeReady).agenda = s.agenda := rfl
@[simp] theorem State.becomeReady_replies (s : State) : (s.becomeReady).replies = s.replies := rfl

/-! ## hostRead -/

@[simp] theorem State.hostRead_r (s : State) (size : Size) (off : Nat) : (s.hostRead size off).r = s.r := rfl
@[simp] theorem State.hostRead_t (s : State) (size : Size) (off : Nat) : (s.hostRead size off).t = s.t := rfl
@[simp] theorem State.hostRead_k (s : State) (size : Size) (off : Nat) : (s.hostRead size off).k = s.k := rfl
@[simp] theorem State.hostRead_c (s : State) (size : Size) (off : Nat) : (s.hostRead size off).c = s.c := rfl
@[simp] theorem State.hostRead_x (s : State) (size : Size) (off : Nat) : (s.hostRead size off).x = s.x := rfl
@[simp] theorem State.hostRead_y (s : State) (size : Size) (off : Nat) : (s.hostRead size off).y = s.y := rfl
@[simp] theorem State.hostRead_w (s : State) (size : Size) (off : Nat) : (s.hostRead size off).w = s.w := rfl
@[simp] theorem State.hostRead_wvalid (s : State) (size : Size) (off : Nat) : (s.hostRead size off).wvalid = s.wvalid := rfl
@[simp] theorem State.hostRead_ready (s : State) (size : Size) (off : Nat) : (s.hostRead size off).ready = s.ready := rfl
@[simp] theorem State.hostRead_pending (s : State) (size : Size) (off : Nat) : (s.hostRead size off).pending = s.pending := rfl
@[simp] theorem State.hostRead_done (s : State) (size : Size) (off : Nat) : (s.hostRead size off).done = s.done := rfl
@[simp] theorem State.hostRead_ieDone (s : State) (size : Size) (off : Nat) : (s.hostRead size off).ieDone = s.ieDone := rfl
@[simp] theorem State.hostRead_ieErr (s : State) (size : Size) (off : Nat) : (s.hostRead size off).ieErr = s.ieErr := rfl
@[simp] theorem State.hostRead_err (s : State) (size : Size) (off : Nat) : (s.hostRead size off).err = s.err := rfl
@[simp] theorem State.hostRead_cfg (s : State) (size : Size) (off : Nat) : (s.hostRead size off).cfg = s.cfg := rfl
@[simp] theorem State.hostRead_agenda (s : State) (size : Size) (off : Nat) : (s.hostRead size off).agenda = s.agenda := rfl
@[simp] theorem State.hostRead_replies (s : State) (size : Size) (off : Nat) :
    (s.hostRead size off).replies = s.replies ++ [s.readAt size off] := rfl

/-! ## setEnables -/

@[simp] theorem State.setEnables_r (s : State) (v : Word) : (s.setEnables v).r = s.r := rfl
@[simp] theorem State.setEnables_t (s : State) (v : Word) : (s.setEnables v).t = s.t := rfl
@[simp] theorem State.setEnables_k (s : State) (v : Word) : (s.setEnables v).k = s.k := rfl
@[simp] theorem State.setEnables_c (s : State) (v : Word) : (s.setEnables v).c = s.c := rfl
@[simp] theorem State.setEnables_x (s : State) (v : Word) : (s.setEnables v).x = s.x := rfl
@[simp] theorem State.setEnables_y (s : State) (v : Word) : (s.setEnables v).y = s.y := rfl
@[simp] theorem State.setEnables_w (s : State) (v : Word) : (s.setEnables v).w = s.w := rfl
@[simp] theorem State.setEnables_wvalid (s : State) (v : Word) : (s.setEnables v).wvalid = s.wvalid := rfl
@[simp] theorem State.setEnables_ready (s : State) (v : Word) : (s.setEnables v).ready = s.ready := rfl
@[simp] theorem State.setEnables_pending (s : State) (v : Word) : (s.setEnables v).pending = s.pending := rfl
@[simp] theorem State.setEnables_done (s : State) (v : Word) : (s.setEnables v).done = s.done := rfl
@[simp] theorem State.setEnables_ieDone (s : State) (v : Word) : (s.setEnables v).ieDone = v.getLsbD 0 := rfl
@[simp] theorem State.setEnables_ieErr (s : State) (v : Word) : (s.setEnables v).ieErr = v.getLsbD 1 := rfl
@[simp] theorem State.setEnables_err (s : State) (v : Word) : (s.setEnables v).err = s.err := rfl
@[simp] theorem State.setEnables_cfg (s : State) (v : Word) : (s.setEnables v).cfg = s.cfg := rfl
@[simp] theorem State.setEnables_agenda (s : State) (v : Word) : (s.setEnables v).agenda = s.agenda := rfl
@[simp] theorem State.setEnables_replies (s : State) (v : Word) : (s.setEnables v).replies = s.replies := rfl

/-! ## storeWeights -/

@[simp] theorem State.storeWeights_r (s : State) (ws : List Byte) : (s.storeWeights ws).r = s.r := rfl
@[simp] theorem State.storeWeights_t (s : State) (ws : List Byte) : (s.storeWeights ws).t = s.t := rfl
@[simp] theorem State.storeWeights_k (s : State) (ws : List Byte) : (s.storeWeights ws).k = s.k := rfl
@[simp] theorem State.storeWeights_c (s : State) (ws : List Byte) : (s.storeWeights ws).c = s.c := rfl
@[simp] theorem State.storeWeights_x (s : State) (ws : List Byte) : (s.storeWeights ws).x = s.x := rfl
@[simp] theorem State.storeWeights_y (s : State) (ws : List Byte) : (s.storeWeights ws).y = s.y := rfl
@[simp] theorem State.storeWeights_w (s : State) (ws : List Byte) : (s.storeWeights ws).w = Memory.writeFrom s.w 0 ws := rfl
@[simp] theorem State.storeWeights_wvalid (s : State) (ws : List Byte) : (s.storeWeights ws).wvalid = true := rfl
@[simp] theorem State.storeWeights_ready (s : State) (ws : List Byte) : (s.storeWeights ws).ready = s.ready := rfl
@[simp] theorem State.storeWeights_pending (s : State) (ws : List Byte) : (s.storeWeights ws).pending = s.pending := rfl
@[simp] theorem State.storeWeights_done (s : State) (ws : List Byte) : (s.storeWeights ws).done = s.done := rfl
@[simp] theorem State.storeWeights_ieDone (s : State) (ws : List Byte) : (s.storeWeights ws).ieDone = s.ieDone := rfl
@[simp] theorem State.storeWeights_ieErr (s : State) (ws : List Byte) : (s.storeWeights ws).ieErr = s.ieErr := rfl
@[simp] theorem State.storeWeights_err (s : State) (ws : List Byte) : (s.storeWeights ws).err = s.err := rfl
@[simp] theorem State.storeWeights_cfg (s : State) (ws : List Byte) : (s.storeWeights ws).cfg = s.cfg := rfl
@[simp] theorem State.storeWeights_agenda (s : State) (ws : List Byte) : (s.storeWeights ws).agenda = s.agenda := rfl
@[simp] theorem State.storeWeights_replies (s : State) (ws : List Byte) : (s.storeWeights ws).replies = s.replies := rfl

/-! ## combine -/

@[simp] theorem State.combine_r (s : State) :
    (s.combine).r = lagComb s.cfg (indexOf s.k) s.y s.w := rfl
@[simp] theorem State.combine_t (s : State) : (s.combine).t = s.t := rfl
@[simp] theorem State.combine_k (s : State) : (s.combine).k = s.k := rfl
@[simp] theorem State.combine_c (s : State) : (s.combine).c = s.c := rfl
@[simp] theorem State.combine_x (s : State) : (s.combine).x = s.x := rfl
@[simp] theorem State.combine_y (s : State) : (s.combine).y = s.y := rfl
@[simp] theorem State.combine_w (s : State) : (s.combine).w = s.w := rfl
@[simp] theorem State.combine_wvalid (s : State) : (s.combine).wvalid = s.wvalid := rfl
@[simp] theorem State.combine_ready (s : State) : (s.combine).ready = s.ready := rfl
@[simp] theorem State.combine_pending (s : State) : (s.combine).pending = s.pending := rfl
@[simp] theorem State.combine_done (s : State) : (s.combine).done = s.done := rfl
@[simp] theorem State.combine_ieDone (s : State) : (s.combine).ieDone = s.ieDone := rfl
@[simp] theorem State.combine_ieErr (s : State) : (s.combine).ieErr = s.ieErr := rfl
@[simp] theorem State.combine_err (s : State) : (s.combine).err = s.err := rfl
@[simp] theorem State.combine_cfg (s : State) : (s.combine).cfg = s.cfg := rfl
@[simp] theorem State.combine_agenda (s : State) : (s.combine).agenda = s.agenda := rfl
@[simp] theorem State.combine_replies (s : State) : (s.combine).replies = s.replies := rfl

/-! ## withPendingWord -/

@[simp] theorem State.withPendingWord_r (s : State) (v : Word) : (s.withPendingWord v).r = s.r := rfl
@[simp] theorem State.withPendingWord_t (s : State) (v : Word) : (s.withPendingWord v).t = s.t := rfl
@[simp] theorem State.withPendingWord_k (s : State) (v : Word) : (s.withPendingWord v).k = s.k := rfl
@[simp] theorem State.withPendingWord_c (s : State) (v : Word) : (s.withPendingWord v).c = s.c := rfl
@[simp] theorem State.withPendingWord_x (s : State) (v : Word) : (s.withPendingWord v).x = s.x := rfl
@[simp] theorem State.withPendingWord_y (s : State) (v : Word) : (s.withPendingWord v).y = s.y := rfl
@[simp] theorem State.withPendingWord_w (s : State) (v : Word) : (s.withPendingWord v).w = s.w := rfl
@[simp] theorem State.withPendingWord_wvalid (s : State) (v : Word) : (s.withPendingWord v).wvalid = s.wvalid := rfl
@[simp] theorem State.withPendingWord_ready (s : State) (v : Word) : (s.withPendingWord v).ready = true := rfl
@[simp] theorem State.withPendingWord_pending (s : State) (v : Word) : (s.withPendingWord v).pending = some v := rfl
@[simp] theorem State.withPendingWord_done (s : State) (v : Word) : (s.withPendingWord v).done = s.done := rfl
@[simp] theorem State.withPendingWord_ieDone (s : State) (v : Word) : (s.withPendingWord v).ieDone = s.ieDone := rfl
@[simp] theorem State.withPendingWord_ieErr (s : State) (v : Word) : (s.withPendingWord v).ieErr = s.ieErr := rfl
@[simp] theorem State.withPendingWord_err (s : State) (v : Word) : (s.withPendingWord v).err = s.err := rfl
@[simp] theorem State.withPendingWord_cfg (s : State) (v : Word) : (s.withPendingWord v).cfg = s.cfg := rfl
@[simp] theorem State.withPendingWord_agenda (s : State) (v : Word) : (s.withPendingWord v).agenda = .engine :: s.agenda := rfl
@[simp] theorem State.withPendingWord_replies (s : State) (v : Word) : (s.withPendingWord v).replies = s.replies := rfl

/-! ## resetBlock -/

@[simp] theorem State.resetBlock_r (s : State) : (s.resetBlock).r = 0x00#8 := rfl
@[simp] theorem State.resetBlock_t (s : State) : (s.resetBlock).t = 0x00#8 := rfl
@[simp] theorem State.resetBlock_k (s : State) : (s.resetBlock).k = 0x00#8 := rfl
@[simp] theorem State.resetBlock_c (s : State) : (s.resetBlock).c = [] := rfl
@[simp] theorem State.resetBlock_x (s : State) : (s.resetBlock).x = [] := rfl
@[simp] theorem State.resetBlock_y (s : State) : (s.resetBlock).y = [] := rfl
@[simp] theorem State.resetBlock_w (s : State) : (s.resetBlock).w = [] := rfl
@[simp] theorem State.resetBlock_wvalid (s : State) : (s.resetBlock).wvalid = false := rfl
@[simp] theorem State.resetBlock_ready (s : State) : (s.resetBlock).ready = false := rfl
@[simp] theorem State.resetBlock_pending (s : State) : (s.resetBlock).pending = none := rfl
@[simp] theorem State.resetBlock_done (s : State) : (s.resetBlock).done = false := rfl
@[simp] theorem State.resetBlock_ieDone (s : State) : (s.resetBlock).ieDone = false := rfl
@[simp] theorem State.resetBlock_ieErr (s : State) : (s.resetBlock).ieErr = false := rfl
@[simp] theorem State.resetBlock_err (s : State) : (s.resetBlock).err = ErrorRecord.clear := rfl
@[simp] theorem State.resetBlock_cfg (s : State) : (s.resetBlock).cfg = s.cfg := rfl
@[simp] theorem State.resetBlock_agenda (s : State) : (s.resetBlock).agenda = s.agenda := rfl
@[simp] theorem State.resetBlock_replies (s : State) : (s.resetBlock).replies = s.replies := rfl

end Sys2Proof.Machine
end

