-- ==== Sys2Proof/Laws/Ops.lean ====
section
/-! SUPPORT. What the shared operations can do, each said once: the three ways a command completes, the error
record, the identifier check and the Lagrange weights. -/

namespace Sys2Proof.Machine

variable {s t : State} {opc info : Byte} {kind : ErrorKind}

/-! ## Completion -/

@[simp] theorem succeed_eq_next : succeed s = .next t ↔ t = s.complete := by simp [succeed, eq_comm]

@[simp] theorem fail_eq_next : fail s opc kind info = .next t ↔ t = s.raise opc kind info := by
  simp [fail, eq_comm]

@[simp] theorem succeedWith_eq_next {α : Type} {value : Option α} {write : α → State} :
    succeedWith value write = .next t ↔ ∃ v, value = some v ∧ t = (write v).complete := by
  cases value <;> simp [succeedWith]

@[simp] theorem succeedWith_some {α : Type} (v : α) (write : α → State) :
    succeedWith (some v) write = .next (write v).complete := rfl

/-- A successful end leaves what `Completed` says, when the write phase left the error record and the shell. -/
theorem completed_complete {u : State} (he : u.err = s.err) (hs : SameShell s u) : Completed s u.complete :=
  ⟨rfl, rfl, he, hs⟩

/-- Writing R and completing writes no register but R. -/
theorem onlyResult_setR (s : State) (v : Byte) : OnlyResult s (s.setR v).complete :=
  ⟨⟨rfl, rfl, rfl, rfl, rfl, rfl, rfl, rfl, rfl⟩, ⟨rfl, rfl⟩, rfl, rfl, rfl, rfl, rfl⟩

/-! ## The error record -/

/-- What recording an error makes of the record (R202). -/
theorem record_eq (e : ErrorRecord) (kind : ErrorKind) (opc info : Byte) : e.record kind opc info =
    if e.code = 0x00#8 then { code := kind.code, opc := opc, info := info, multi := false }
    else { code := e.code, opc := e.opc, info := e.info, multi := true } := rfl

theorem ErrorKind.code_ne_zero (kind : ErrorKind) : kind.code ≠ 0x00#8 := by cases kind <;> decide

theorem ErrorKind.code_le (kind : ErrorKind) : kind.code.toNat ≤ 0x0A := by cases kind <;> decide

/-- After recording, an error is pending. -/
theorem record_code_ne_zero (e : ErrorRecord) (kind : ErrorKind) (opc info : Byte) :
    (e.record kind opc info).code ≠ 0x00#8 := by
  rw [record_eq]; split
  · exact kind.code_ne_zero
  · assumption

theorem record_code_le (e : ErrorRecord) (he : e.code.toNat ≤ 0x0A) (kind : ErrorKind) (opc info : Byte) :
    (e.record kind opc info).code.toNat ≤ 0x0A := by
  rw [record_eq]; split
  · exact kind.code_le
  · exact he

theorem isPending_iff (e : ErrorRecord) : e.isPending = true ↔ e.code ≠ 0x00#8 := by
  simp [ErrorRecord.isPending]

/-- Raising an error is what `RaisedFrom` says (R202, R205). -/
theorem raisedFrom_raise (s : State) (opc : Byte) (kind : ErrorKind) (info : Byte) :
    RaisedFrom s (s.raise opc kind info) kind opc info := rfl

theorem raisedFrom_iff : RaisedFrom s t kind opc info ↔ t = s.raise opc kind info := Iff.rfl

/-! ## The identifier check -/

theorem firstZeroId_eq_none {n : Nat} {x : Memory} :
    firstZeroId n x = none ↔ ∀ k < n, Memory.read x k ≠ 0x00#8 := by
  simp [firstZeroId, List.find?_eq_none]

theorem firstDuplicateId_eq_none {n : Nat} {x : Memory} :
    firstDuplicateId n x = none ↔ ∀ k < n, ∀ j < k, Memory.read x j ≠ Memory.read x k := by
  simp [firstDuplicateId, List.find?_eq_none]

/-- The identifiers pass when they are nonzero and distinct (R135). -/
theorem checkIds_eq_none {n : Nat} {x : Memory} : checkIds n x = none ↔
    (∀ k < n, Memory.read x k ≠ 0x00#8) ∧ ∀ k < n, ∀ j < k, Memory.read x j ≠ Memory.read x k := by
  rw [← firstZeroId_eq_none, ← firstDuplicateId_eq_none, checkIds]
  split
  · next h => simp [h]
  · next h => split <;> next h' => simp [h, h']

theorem checkIds_distinct {n : Nat} {x : Memory} (h : checkIds n x = none) {j k : Nat} (hj : j < n)
    (hk : k < n) (hjk : j ≠ k) : Memory.read x j ≠ Memory.read x k := by
  obtain ⟨-, h2⟩ := checkIds_eq_none.1 h
  rcases Nat.lt_or_gt_of_ne hjk with hlt | hgt
  · exact h2 k hk j hlt
  · exact (h2 j hj k hgt).symm

/-! ## Lagrange weights -/

theorem gfAdd_ne_zero {a b : Byte} (h : a ≠ b) : gfAdd a b ≠ 0x00#8 := by
  intro h0
  apply h
  have : (a ^^^ b) ^^^ b = 0x00#8 ^^^ b := congrArg (· ^^^ b) h0
  rwa [BitVec.xor_assoc, BitVec.xor_self, BitVec.xor_zero, BitVec.zero_xor] at this

/-- Valid identifiers have weights in a legal configuration: no divisor is 0 (R150). -/
theorem lagW_isSome {cfg : Config} (hc : configOk cfg = true) {n : Nat} {x : Memory}
    (h : checkIds n x = none) {k : Nat} (hk : k < n) : ∃ v, lagW cfg n x k = some v := by
  have key : ∀ (l : List Nat), (∀ j ∈ l, j < n) → ∀ acc, ∃ v, l.foldlM (lagFactor cfg x k) acc = some v := by
    intro l
    induction l with
    | nil => intro _ acc; exact ⟨acc, rfl⟩
    | cons j l ih =>
      intro hl acc
      have hstep : ∃ u, lagFactor cfg x k acc j = some u := by
        unfold lagFactor
        split
        · exact ⟨acc, rfl⟩
        · next hjk =>
          obtain ⟨q, hq⟩ := gfDiv_isSome hc (Memory.read x j)
            (gfAdd_ne_zero (checkIds_distinct h (hl j (by simp)) hk hjk))
          exact ⟨_, by rw [hq]; rfl⟩
      obtain ⟨u, hu⟩ := hstep
      obtain ⟨v, hv⟩ := ih (fun i hi => hl i (by simp [hi])) u
      exact ⟨v, by rw [List.foldlM_cons, hu]; exact hv⟩
  exact key _ (fun j hj => List.mem_range.1 hj) _

theorem mapM_eq_some {α : Type} {f : α → Option Byte} {l : List α} {vs : List Byte}
    (h : l.mapM f = some vs) : l.map f = vs.map some := by
  induction l generalizing vs with
  | nil => simp_all
  | cons a l ih =>
    rw [List.mapM_cons] at h
    cases ha : f a with
    | none => simp [ha] at h
    | some v =>
      cases hl : l.mapM f with
      | none => simp [ha, hl] at h
      | some ws =>
        obtain rfl : v :: ws = vs := by simpa [ha, hl] using h
        simp [ha, ih hl]

theorem mapM_isSome {α : Type} {f : α → Option Byte} {l : List α} (h : ∀ a ∈ l, ∃ v, f a = some v) :
    ∃ vs, l.mapM f = some vs := by
  induction l with
  | nil => exact ⟨[], rfl⟩
  | cons a l ih =>
    obtain ⟨v, hv⟩ := h a (by simp)
    obtain ⟨vs, hvs⟩ := ih (fun b hb => h b (by simp [hb]))
    exact ⟨v :: vs, by simp [List.mapM_cons, hv, hvs]⟩

/-- Valid identifiers have all their weights in a legal configuration. -/
theorem lagWeights_isSome {cfg : Config} (hc : configOk cfg = true) {n : Nat} {x : Memory}
    (h : checkIds n x = none) : ∃ ws, lagWeights cfg n x = some ws :=
  mapM_isSome (fun _ hk => lagW_isSome hc h (List.mem_range.1 hk))

/-- The weights are one for each point, in order (R158). -/
theorem lagWeights_eq_some {cfg : Config} {n : Nat} {x : Memory} {ws : List Byte}
    (h : lagWeights cfg n x = some ws) :
    ws.length = n ∧ ∀ k (hk : k < ws.length), lagW cfg n x k = some ws[k] := by
  have hm := mapM_eq_some h
  have hlen : ws.length = n := by simpa using (congrArg List.length hm).symm
  refine ⟨hlen, fun k hk => ?_⟩
  have := congrArg (fun l => l[k]?) hm
  simpa [hk, hlen ▸ hk] using this

/-- The values EVALX writes are one for each point (R136). -/
@[simp] theorem shareValues_length (s : State) : (shareValues s).length = s.k.toNat := by
  simp [shareValues, indexOf]

end Sys2Proof.Machine
end

