-- ==== Sys2Proof/Laws/Exec.lean ====
section
/-! SUPPORT. What a command can do, said once over all commands: the next states a completion can leave. -/

namespace Sys2Proof.Machine

variable {s t : State}

/-- The commands that write R and nothing else when they succeed. -/
def writesResult : Instr → Bool
  | .add _ _ | .mul _ _ | .div _ _ | .inv _ | .pow _ _ | .log _ | .exp _ => true
  | .rdc _ | .eval _ | .rdx _ | .rdy _ | .rdw _ | .lcomb => true
  | .nop | .sett _ | .wrc _ _ | .evalx | .setk _ | .wrx _ _ | .wry _ _ | .lagw | .interp | .zero => false

/-- What a command that answers a next state has done: raised an error, written R or nothing, or made the write of
one of the commands that store. -/
inductive Effect (i : Instr) (s : State) : State → Prop where
  | raised (opc : Byte) (kind : ErrorKind) (info : Byte) (ho : opc = i.opcode) : Effect i s (s.raise opc kind info)
  | nothing (hi : i = .nop) : Effect i s s.complete
  | result (v : Byte) (hi : writesResult i = true) : Effect i s (s.setR v).complete
  | threshold (n : Byte) (hi : i = .sett n) (h2 : 2 ≤ n.toNat) (hn : n.toNat ≤ s.cfg.nc) : Effect i s (s.setT n).complete
  | coefficient (n : Byte) (v : Src) (hi : i = .wrc n v) (hn : n.toNat < s.cfg.nc) :
    Effect i s (s.setC (Memory.write s.c n.toNat (operandValue s v))).complete
  | shares (vs : List Byte) (hi : i = .evalx) (hl : vs.length = s.k.toNat) :
    Effect i s (s.setY (Memory.writeFrom s.y 0 vs)).complete
  | count (n : Byte) (hi : i = .setk n) (h2 : 2 ≤ n.toNat) (hn : n.toNat ≤ s.cfg.np) :
    Effect i s ((s.setK n).setWvalid false).complete
  | identifier (n : Byte) (v : Src) (hi : i = .wrx n v) (hn : n.toNat < s.cfg.np) :
    Effect i s ((s.setX (Memory.write s.x n.toNat (operandValue s v))).setWvalid false).complete
  | value (n : Byte) (v : Src) (hi : i = .wry n v) (hn : n.toNat < s.cfg.np) :
    Effect i s (s.setY (Memory.write s.y n.toNat (operandValue s v))).complete
  | weights (ws : List Byte) (hi : i = .lagw) (h2 : 2 ≤ s.k.toNat) (hc : checkIds s.k.toNat s.x = none)
    (hw : lagWeights s.cfg s.k.toNat s.x = some ws) : Effect i s (s.storeWeights ws).complete
  | interpolated (ws : List Byte) (hi : i = .interp) (h2 : 2 ≤ s.k.toNat) (hc : checkIds s.k.toNat s.x = none)
    (hw : lagWeights s.cfg s.k.toNat s.x = some ws) : Effect i s (s.storeWeights ws).combine.complete
  | erased (hi : i = .zero) : Effect i s
    ((((((s.setC Memory.zeroed).setX Memory.zeroed).setY Memory.zeroed).setW Memory.zeroed).setR
      0x00#8).setWvalid false).complete

/-- Every command that answers a next state has one of these effects. -/
theorem exec_effect {i : Instr} (h : exec i s = .next t) : Effect i s t := by
  have hr : ∀ {v}, writesResult i = true → t = (s.setR v).complete → Effect i s t := fun hi h => h ▸ .result _ hi
  have hf : ∀ {o k n}, o = i.opcode → t = s.raise o k n → Effect i s t := fun ho h => h ▸ .raised _ _ _ ho
  cases i <;> simp only [exec, execNop, execAdd, execMul, execDiv, execInv, execPow, execLog, execExp, execSett,
    execWrc, execRdc, execEval, execEvalx, execSetk, execWrx, execWry, execRdx, execRdy, execRdw, execLagw,
    execLcomb, execInterp, execZero] at h <;> (repeat' (split at h)) <;>
    simp only [succeed_eq_next, fail_eq_next, succeedWith_eq_next] at h <;>
    first
      | exact hf rfl h
      | (subst h; exact .nothing rfl)
      | exact hr rfl h
      | (obtain ⟨_, _, h⟩ := h; exact hr rfl h)
      | (subst h; exact .erased rfl)
      | (subst h; exact .threshold _ rfl (by simp only [indexOf] at *; omega) (by simp only [indexOf] at *; omega))
      | (subst h; exact .count _ rfl (by simp only [indexOf] at *; omega) (by simp only [indexOf] at *; omega))
      | (subst h; exact .coefficient _ _ rfl (by simp only [indexOf] at *; omega))
      | (subst h; exact .identifier _ _ rfl (by simp only [indexOf] at *; omega))
      | (subst h; exact .value _ _ rfl (by simp only [indexOf] at *; omega))
      | (subst h; exact .shares _ rfl (by simp [shareValues, indexOf]))
      | (obtain ⟨ws, hw, h⟩ := h; subst h; exact .weights ws rfl (by simp only [indexOf] at *; omega) ‹_› hw)
      | (obtain ⟨ws, hw, h⟩ := h; subst h; exact .interpolated ws rfl (by simp only [indexOf] at *; omega) ‹_› hw)

/-- A check of a meaning that does not raise is passed over. -/
theorem check_passes {c : Prop} [Decidable c] (h : ¬ c) (a b : Result) : (if c then a else b) = b := if_neg h

/-- A check of a meaning that raises is the whole completion. -/
theorem check_raises {c : Prop} [Decidable c] (h : c) (a b : Result) : (if c then a else b) = a := if_pos h

end Sys2Proof.Machine
end

