-- ==== Sys2Proof/Laws/FieldStructure.lean ====
section
/-! SUPPORT. In a legal configuration the elements form a field in Mathlib's sense, so that its polynomials, sums and
products apply to the block's: the quotient that division gives, and the field structure with the lemmas that lead
from its operations to the block's. -/

namespace Sys2Proof.Machine

variable {cfg : Config}

/-! ## Division -/

/-- A power of GEN whose exponent is reduced modulo 255, as R102, R103 and R105 look it up. -/
theorem expEntry_mod (h : configOk cfg = true) (n : Nat) : expEntry cfg (n % 255) = genPow cfg n := by
  have hd := configOk_degree h
  have cycle : ∀ k, genPow cfg (255 * k) = 0x01#8 := by
    intro k
    induction k with
    | zero => rfl
    | succ k ih => rw [Nat.mul_succ, genPow_add hd, ih, (configOk_order h).1, gfMul_one hd]
  rw [expEntry_of_lt (Nat.mod_lt _ (by omega))]
  conv_rhs => rw [← Nat.div_add_mod n 255, genPow_add hd, cycle, one_gfMul hd]

/-- What division gives, times the divisor, is the dividend (R103). -/
theorem gfDiv_eq_some (h : configOk cfg = true) {a b q : Byte} (hq : gfDiv cfg a b = some q) : gfMul cfg q b = a := by
  unfold gfDiv at hq
  split at hq
  · cases hq
  · next hb =>
    split at hq
    · next ha => cases hq; rw [ha, zero_gfMul]
    · next ha =>
      obtain ⟨i, hi, hl, rfl⟩ := logEntry_of_ne_zero h hb
      obtain ⟨j, hj, hl', rfl⟩ := logEntry_of_ne_zero h ha
      rw [hl, hl'] at hq
      cases hq
      have hd := configOk_degree h
      rw [expEntry_mod h, ← genPow_add hd, show j + 255 - i + i = 255 + j by omega, genPow_add hd,
        (configOk_order h).1, one_gfMul hd]

/-- A nonzero factor cancels. -/
theorem gfMul_cancel (h : configOk cfg = true) {a b c : Byte} (hb : b ≠ 0x00#8)
    (he : gfMul cfg a b = gfMul cfg c b) : a = c := by
  have hd := configOk_degree h
  obtain ⟨q, hq⟩ := gfDiv_isSome h 0x01#8 hb
  have hq := gfDiv_eq_some h hq
  rw [gfMul_comm] at hq
  have := congrArg (fun x => gfMul cfg x q) he
  simpa only [gfMul_assoc hd, hq, gfMul_one hd] using this

/-! ## The field -/

/-- A byte as an element of the field of a configuration. -/
@[ext] structure Elem (cfg : Config) where
  val : Byte

/-- The value of a quotient, 0 where it has none; only nonzero divisors matter. -/
def quotient (cfg : Config) (a b : Byte) : Byte := (gfDiv cfg a b).getD 0x00#8

/-- The field of a legal configuration. -/
@[reducible] noncomputable def fieldOf (h : configOk cfg = true) : Field (Elem cfg) :=
  letI : Add (Elem cfg) := ⟨fun a b => ⟨gfAdd a.val b.val⟩⟩
  letI : Mul (Elem cfg) := ⟨fun a b => ⟨gfMul cfg a.val b.val⟩⟩
  letI : Neg (Elem cfg) := ⟨fun a => a⟩
  letI : Zero (Elem cfg) := ⟨⟨0x00#8⟩⟩
  letI : One (Elem cfg) := ⟨⟨0x01#8⟩⟩
  letI : Inv (Elem cfg) := ⟨fun a => ⟨quotient cfg 0x01#8 a.val⟩⟩
  have hd := configOk_degree h
  Field.ofMinimalAxioms (Elem cfg)
    (fun a b c => Elem.ext (BitVec.xor_assoc a.val b.val c.val))
    (fun a => Elem.ext (BitVec.zero_xor (x := a.val)))
    (fun a => Elem.ext (BitVec.xor_self (x := a.val)))
    (fun a b c => Elem.ext (gfMul_assoc hd a.val b.val c.val))
    (fun a b => Elem.ext (gfMul_comm cfg a.val b.val))
    (fun a => Elem.ext (one_gfMul hd a.val))
    (fun a ha => Elem.ext (by
      obtain ⟨q, hq⟩ := gfDiv_isSome h 0x01#8 (y := a.val) (fun h0 => ha (Elem.ext h0))
      show gfMul cfg a.val (quotient cfg 0x01#8 a.val) = 0x01#8
      rw [quotient, hq, gfMul_comm]
      exact gfDiv_eq_some h hq))
    (Elem.ext (by show quotient cfg 0x01#8 0x00#8 = 0x00#8; simp [quotient, gfDiv]))
    (fun a b c => Elem.ext (gfMul_add_right cfg a.val b.val c.val))
    ⟨⟨0x00#8⟩, ⟨0x01#8⟩, fun h01 => by simpa using congrArg Elem.val h01⟩

section
variable (h : configOk cfg = true)

theorem fieldOf_add (a b : Elem cfg) : letI := fieldOf h; (a + b).val = gfAdd a.val b.val := rfl

theorem fieldOf_mul (a b : Elem cfg) : letI := fieldOf h; (a * b).val = gfMul cfg a.val b.val := rfl

theorem fieldOf_zero : letI := fieldOf h; (0 : Elem cfg).val = 0x00#8 := rfl

theorem fieldOf_one : letI := fieldOf h; (1 : Elem cfg).val = 0x01#8 := rfl

/-- In characteristic 2 an element is its own negative, so subtraction is addition (R100). -/
theorem fieldOf_sub (a b : Elem cfg) : letI := fieldOf h; (a - b).val = gfAdd a.val b.val := rfl

/-- The field's quotient is what the block's division gives. -/
theorem fieldOf_div {a b q : Byte} (hq : gfDiv cfg a b = some q) :
    letI := fieldOf h; (⟨a⟩ / ⟨b⟩ : Elem cfg) = ⟨q⟩ := by
  let := fieldOf h
  have hb : (⟨b⟩ : Elem cfg) ≠ 0 := fun h0 => by
    have h0 : b = 0x00#8 := congrArg Elem.val h0
    simp [h0, gfDiv] at hq
  rw [div_eq_iff hb]
  exact Elem.ext (gfDiv_eq_some h hq).symm

end

end Sys2Proof.Machine
end

