-- ==== Sys2Proof/Laws/Lagrange.lean ====
section
/-! SUPPORT. The evaluator and the interpolator in terms of the field: a weight is a product of quotients and the value
at 0 of a Lagrange basis polynomial, Horner's loop is the value of a polynomial, a loop of additions is a sum. -/

namespace Sys2Proof.Machine

variable {cfg : Config} (h : configOk cfg = true) {n k : Nat} {x : Memory} {v : Byte}

/-- The entries of a file as elements of the field. -/
def element (cfg : Config) (x : Memory) (j : Nat) : Elem cfg := ⟨Memory.read x j⟩

/-- Identifiers that pass the check are distinct elements. -/
theorem element_injOn (hx : checkIds n x = none) : Set.InjOn (element cfg x) (Finset.range n : Set Nat) := by
  intro i hi j hj he
  by_contra hne
  exact checkIds_distinct hx (by simpa using hi) (by simpa using hj) hne (congrArg Elem.val he)

/-- lag_w is the product of X[j] / (X[j] ⊕ X[k]) over the other points (R150). -/
theorem lagW_eq_prod (hv : lagW cfg n x k = some v) : let _ := fieldOf h
    (⟨v⟩ : Elem cfg) =
      ∏ j ∈ (Finset.range n).erase k, element cfg x j / (element cfg x j - element cfg x k) := by
  intro _
  have key : ∀ (l : List Nat), l.Nodup → ∀ acc v, l.foldlM (lagFactor cfg x k) acc = some v →
      (⟨v⟩ : Elem cfg) =
        ⟨acc⟩ * ∏ j ∈ l.toFinset.erase k, element cfg x j / (element cfg x j - element cfg x k) := by
    intro l
    induction l with
    | nil =>
      intro _ acc v hv
      have hv : acc = v := by simpa using hv
      simp [hv]
    | cons j l ih =>
      intro hn acc v hv
      have hn := List.nodup_cons.1 hn
      rw [List.foldlM_cons] at hv
      by_cases hjk : j = k
      · subst hjk
        have hv : l.foldlM (lagFactor cfg x j) acc = some v := by simpa [lagFactor] using hv
        rw [ih hn.2 acc v hv]
        congr 2
        ext i
        simp
      · obtain ⟨w, hw, hv⟩ := Option.bind_eq_some_iff.1 hv
        rw [lagFactor, if_neg hjk] at hw
        obtain ⟨q, hq, rfl⟩ := Option.map_eq_some_iff.1 hw
        have hins : (List.toFinset (j :: l)).erase k = insert j (l.toFinset.erase k) := by
          rw [List.toFinset_cons, Finset.erase_insert_of_ne hjk]
        have hq' : element cfg x j / (element cfg x j - element cfg x k) = ⟨q⟩ := fieldOf_div h hq
        rw [ih hn.2 _ v hv, hins, Finset.prod_insert (by simp [hn.1]), hq', ← mul_assoc]
        rfl
  rw [key (List.range n) List.nodup_range _ v hv, List.toFinset_range]
  exact one_mul _

/-- A weight is the value at 0 of the point's Lagrange basis polynomial (R27, R150). -/
theorem lagW_eq_basis (hv : lagW cfg n x k = some v) : let _ := fieldOf h
    (⟨v⟩ : Elem cfg) = (Lagrange.basis (Finset.range n) (element cfg x) k).eval 0 := by
  intro _
  rw [lagW_eq_prod h hv, Lagrange.basis, Polynomial.eval_prod]
  refine Finset.prod_congr rfl (fun j hj => ?_)
  simp only [Lagrange.basisDivisor, Polynomial.eval_mul, Polynomial.eval_C, Polynomial.eval_sub, Polynomial.eval_X,
    zero_sub]
  rw [← neg_sub (element cfg x j), inv_neg, neg_mul_neg, div_eq_mul_inv, mul_comm]

/-- A loop that adds n values is their sum. -/
theorem foldl_gfAdd_eq_sum (f : Nat → Byte) (n : Nat) : let _ := fieldOf h
    (⟨(List.range n).foldl (fun acc k => gfAdd acc (f k)) 0x00#8⟩ : Elem cfg) = ∑ k ∈ Finset.range n, ⟨f k⟩ := by
  intro _
  induction n with
  | zero => rfl
  | succ n ih => rw [List.range_succ, List.foldl_append, Finset.sum_range_succ, ← ih]; rfl

/-- Horner's loop gives the value of the polynomial with coefficients C[0..n-1] (R130). -/
theorem horner_eq_eval (c : Memory) (p : Byte) (n : Nat) : let _ := fieldOf h
    (⟨horner cfg n c p⟩ : Elem cfg) =
      (∑ i ∈ Finset.range n, Polynomial.C (element cfg c i) * Polynomial.X ^ i).eval ⟨p⟩ := by
  intro _
  have key : ∀ n acc, (⟨hornerFrom cfg c p n acc⟩ : Elem cfg) = ⟨acc⟩ * ⟨p⟩ ^ n +
      (∑ i ∈ Finset.range n, Polynomial.C (element cfg c i) * Polynomial.X ^ i).eval ⟨p⟩ := by
    intro n
    induction n with
    | zero => intro acc; simp [hornerFrom]
    | succ n ih =>
      intro acc
      rw [hornerFrom, ih, Finset.sum_range_succ, Polynomial.eval_add]
      rw [show (⟨gfAdd (gfMul cfg acc p) (Memory.read c n)⟩ : Elem cfg) = ⟨acc⟩ * ⟨p⟩ + element cfg c n from rfl]
      simp
      ring
  rw [horner, key, show (⟨0x00#8⟩ : Elem cfg) = 0 from rfl, zero_mul, zero_add]

end Sys2Proof.Machine
end

