-- ==== Sys2Proof/Laws/PerInstr.lean ====
section
/-! SUPPORT. Statements made for each command. -/

namespace Sys2Proof.Laws

/-- The fields the encoder gives a command pass the six checks of 30_encoding.md R76: there is no ill-formed
command. -/
def LegalFields.Statement (i : Instr) : Prop := i.wellFormed = true

namespace LegalFields

theorem nop : Statement .nop := rfl

theorem add (a b : Src) : Statement (.add a b) := by cases a <;> cases b <;> rfl

theorem mul (a b : Src) : Statement (.mul a b) := by cases a <;> cases b <;> rfl

theorem div (a b : Src) : Statement (.div a b) := by cases a <;> cases b <;> rfl

theorem inv (a : Src) : Statement (.inv a) := by cases a <;> rfl

theorem pow (a b : Src) : Statement (.pow a b) := by cases a <;> cases b <;> rfl

theorem log (a : Src) : Statement (.log a) := by cases a <;> rfl

theorem exp (a : Src) : Statement (.exp a) := by cases a <;> rfl

theorem sett (n : Byte) : Statement (.sett n) := rfl

theorem wrc (i : Byte) (v : Src) : Statement (.wrc i v) := by cases v <;> rfl

theorem rdc (n : Byte) : Statement (.rdc n) := rfl

theorem eval (a : Src) : Statement (.eval a) := by cases a <;> rfl

theorem evalx : Statement .evalx := rfl

theorem setk (n : Byte) : Statement (.setk n) := rfl

theorem wrx (i : Byte) (v : Src) : Statement (.wrx i v) := by cases v <;> rfl

theorem wry (i : Byte) (v : Src) : Statement (.wry i v) := by cases v <;> rfl

theorem rdx (n : Byte) : Statement (.rdx n) := rfl

theorem rdy (n : Byte) : Statement (.rdy n) := rfl

theorem rdw (n : Byte) : Statement (.rdw n) := rfl

theorem lagw : Statement .lagw := rfl

theorem lcomb : Statement .lcomb := rfl

theorem interp : Statement .interp := rfl

theorem zero : Statement .zero := rfl

end LegalFields

end Sys2Proof.Laws
end

