-- ==== Sys2Proof/Laws/Step.lean ====
section
/-! SUPPORT. What a step can do, said once: the window's addresses, the step of each agent, and the cases of a step
that answers a next state. -/

namespace Sys2Proof.Machine

variable {s t : State}

/-! ## Addresses -/

/-- The offsets of the window are what BASE + offset reaches (R51). -/
@[simp] theorem windowOffset_base (off : Nat) (h : off < 64) : windowOffset (Config.base + off) = some off := by
  unfold windowOffset
  rw [if_pos (by omega), Nat.add_sub_cancel_left]

theorem windowOffset_eq_some {addr off : Nat} :
    windowOffset addr = some off ↔ addr = Config.base + off ∧ off < 64 := by
  unfold windowOffset
  constructor
  · intro h
    split at h
    · obtain rfl : addr - Config.base = off := by simpa using h
      omega
    · simp at h
  · rintro ⟨rfl, h⟩
    rw [if_pos (by omega), Nat.add_sub_cancel_left]

theorem windowOffset_eq_none {addr : Nat} :
    windowOffset addr = none ↔ addr < Config.base ∨ Config.base + 64 ≤ addr := by
  unfold windowOffset
  split
  · next h => simp; omega
  · next h => simp; omega

/-! ## The step of each agent -/

theorem step_of_no_turns (h : s.agenda = []) : step s = engineStep s := by simp [step, takeTurn, h]

theorem step_engine {rest : List Turn} (h : s.agenda = .engine :: rest) :
    step s = engineStep (s.setAgenda rest) := by simp [step, takeTurn, h]

theorem step_reset {rest : List Turn} (h : s.agenda = .reset :: rest) :
    step s = .next (s.setAgenda rest).resetBlock := by simp [step, takeTurn, resetStep, h]

theorem step_read {size : Size} {off : Nat} {rest : List Turn} (ho : off < 64)
    (h : s.agenda = .host (.read size (Config.base + off)) :: rest) :
    step s = .next ((s.setAgenda rest).hostRead size off) := by
  simp [step, takeTurn, h, hostAccess, ho]

theorem step_write {size : Size} {off : Nat} {strobes : BitVec 4} {v : Word} {rest : List Turn} (ho : off < 64)
    (h : s.agenda = .host (.write size (Config.base + off) strobes v) :: rest) :
    step s = .next ((s.setAgenda rest).hostWrite size off strobes v) := by
  simp [step, takeTurn, h, hostAccess, ho]

theorem engineStep_not_ready (h : s.ready = false) : engineStep s = .next s.becomeReady := by
  simp [engineStep, h]

theorem engineStep_idle (hr : s.ready = true) (h : s.pending = none) : engineStep s = .next s := by
  simp [engineStep, hr, h]

theorem engineStep_command {v : Word} {i : Instr} (hr : s.ready = true) (hp : s.pending = some v)
    (hd : decodeWord v = .ok i) : engineStep s = exec i s := by
  simp [engineStep, hr, hp, completeWord, hd]

theorem engineStep_illegal {v : Word} {e : DecodeError} (hr : s.ready = true) (hp : s.pending = some v)
    (hd : decodeWord v = .error e) :
    engineStep s = .next (s.raise (v.extractLsb' 24 8) .illegalCmd 0x00#8) := by
  simp [engineStep, hr, hp, completeWord, hd, fail]

/-! ## The cases of a step -/

/-- What a step of the engine that answers a next state has done. -/
theorem engineStep_cases (h : engineStep s = .next t) :
    (s.ready = false ∧ t = s.becomeReady) ∨
    (s.ready = true ∧ s.pending = none ∧ t = s) ∨
    (∃ v i, s.ready = true ∧ s.pending = some v ∧ decodeWord v = .ok i ∧ exec i s = .next t) ∨
    (∃ v e, s.ready = true ∧ s.pending = some v ∧ decodeWord v = .error e ∧
      t = s.raise (v.extractLsb' 24 8) .illegalCmd 0x00#8) := by
  by_cases hr : s.ready = false
  · rw [engineStep_not_ready hr] at h
    exact .inl ⟨hr, by simpa using h.symm⟩
  · have hr : s.ready = true := by simpa using hr
    right
    cases hp : s.pending with
    | none =>
      rw [engineStep_idle hr hp] at h
      exact .inl ⟨hr, rfl, by simpa using h.symm⟩
    | some v =>
      right
      cases hd : decodeWord v with
      | ok i =>
        rw [engineStep_command hr hp hd] at h
        exact .inl ⟨v, i, hr, rfl, hd, h⟩
      | error e =>
        rw [engineStep_illegal hr hp hd] at h
        exact .inr ⟨v, e, hr, rfl, hd, by simpa using h.symm⟩

/-- What a step that answers a next state has done: a step of the engine, a reset, a read or a write. -/
theorem step_cases (h : step s = .next t) :
    (s.agenda = [] ∧ engineStep s = .next t) ∨
    (∃ rest, s.agenda = .engine :: rest ∧ engineStep (s.setAgenda rest) = .next t) ∨
    (∃ rest, s.agenda = .reset :: rest ∧ t = (s.setAgenda rest).resetBlock) ∨
    (∃ rest size off, s.agenda = .host (.read size (Config.base + off)) :: rest ∧ off < 64 ∧
      t = (s.setAgenda rest).hostRead size off) ∨
    (∃ rest size off strobes v, s.agenda = .host (.write size (Config.base + off) strobes v) :: rest ∧
      off < 64 ∧ t = (s.setAgenda rest).hostWrite size off strobes v) := by
  cases ha : s.agenda with
  | nil => exact .inl ⟨rfl, by rwa [step_of_no_turns ha] at h⟩
  | cons turn rest =>
    right
    cases turn with
    | engine => exact .inl ⟨rest, rfl, by rwa [step_engine ha] at h⟩
    | reset =>
      rw [step_reset ha] at h
      exact .inr (.inl ⟨rest, rfl, by simpa using h.symm⟩)
    | host access =>
      right; right
      simp only [step, takeTurn, ha] at h
      cases access with
      | read size addr =>
        left
        cases ho : windowOffset addr with
        | none => simp [hostAccess, ho] at h
        | some off =>
          obtain ⟨rfl, hlt⟩ := windowOffset_eq_some.1 ho
          exact ⟨rest, size, off, rfl, hlt, by simpa [hostAccess, ho] using h.symm⟩
      | write size addr strobes v =>
        right
        cases ho : windowOffset addr with
        | none => simp [hostAccess, ho] at h
        | some off =>
          obtain ⟨rfl, hlt⟩ := windowOffset_eq_some.1 ho
          exact ⟨rest, size, off, strobes, v, rfl, hlt, by simpa [hostAccess, ho] using h.symm⟩

end Sys2Proof.Machine
end

