-- ==== Sys2Proof/Laws/Window.lean ====
section
/-! SUPPORT. What an access to the register window does: an aligned read, a CTRL write and a CMD write, each said
once. -/

namespace Sys2Proof.Machine

variable {s : State} {v : Word} {rest : List Turn} {off : Nat}

/-- An aligned 32-bit read answers the register (R52). -/
theorem readAt_word (h : off % 4 = 0) : s.readAt .word off = s.readRegister off := by
  simp [State.readAt, aligned, Size.bytes, lowBytes, h]

/-- A CTRL write with SRST leaves what the reset leaves: its first three effects are erased (R39). -/
theorem writeCtrl_of_srst (h : v.getLsbD 16 = true) : s.writeCtrl v = s.resetBlock := by
  rw [State.writeCtrl, h]
  cases v.getLsbD 8 <;> cases v.getLsbD 9 <;> rfl

/-- A CTRL write without SRST: the enables, then ERR_CLR, then DONE_CLR (R39). -/
theorem writeCtrl_of_not_srst (h : v.getLsbD 16 = false) : s.writeCtrl v = { s with
    ieDone := v.getLsbD 0
    ieErr := v.getLsbD 1
    err := if v.getLsbD 8 then ErrorRecord.clear else s.err
    done := if v.getLsbD 9 then false else s.done } := by
  rw [State.writeCtrl, h]
  cases v.getLsbD 8 <;> cases v.getLsbD 9 <;> rfl

/-- The three ends of a CMD write (R203). -/
theorem offerCommand_cases (s : State) (v : Word) :
    (s.ready = false ∨ s.busy = true) ∧
      s.offerCommand v = s.setErr (s.err.record .cmdOverrun (v.extractLsb' 24 8) 0x00#8) ∨
    (s.ready = true ∧ s.busy = false ∧ s.err.isPending = true) ∧ s.offerCommand v = s.setErr s.err.markMulti ∨
    (s.ready = true ∧ s.busy = false ∧ s.err.isPending = false) ∧ s.offerCommand v = s.setPending (some v) := by
  unfold State.offerCommand
  cases s.ready <;> cases s.busy <;> cases s.err.isPending <;> simp

/-- A CTRL write is one step (R52). -/
theorem step_ctrlWrite (h : s.agenda = Turn.ctrlWrite v :: rest) :
    step s = .next ((s.setAgenda rest).writeCtrl v) := by
  rw [step_write (by omega) h]; rfl

/-- A CMD write is one step (R52). -/
theorem step_cmdWrite (h : s.agenda = Turn.cmdWrite v :: rest) :
    step s = .next ((s.setAgenda rest).offerCommand v) := by
  rw [step_write (by omega) h]; rfl

/-- What a write leaves: nothing changed, a CTRL write, or a CMD write (R52 to R54). -/
theorem hostWrite_cases (s : State) (size : Size) (off : Nat) (strobes : BitVec 4) (v : Word) :
    s.hostWrite size off strobes v = s ∨
    (size = .word ∧ strobes = 0xF#4 ∧ off = 0x08) ∧ s.hostWrite size off strobes v = s.writeCtrl v ∨
    (size = .word ∧ strobes = 0xF#4 ∧ off = 0x10) ∧ s.hostWrite size off strobes v = s.offerCommand v := by
  unfold State.hostWrite
  split
  · next h =>
    unfold State.writeRegister
    split
    · exact .inr (.inl ⟨⟨h.1, h.2.2, rfl⟩, rfl⟩)
    · exact .inr (.inr ⟨⟨h.1, h.2.2, rfl⟩, rfl⟩)
    · exact .inl rfl
  · exact .inl rfl

end Sys2Proof.Machine
end

