-- ==== Sys2Proof/Laws/Run.lean ====
section
/-! SUPPORT. What a step leaves of the turns to come and of the answers, and when it answers a next state: all that the
end of a run (70_reset_and_hazards.md R263) depends on besides BUSY. -/

namespace Sys2Proof.Machine

variable {s t : State}

/-! ## Turns and answers -/

/-- A command leaves the turns, the answers and the configuration. -/
theorem Effect.shell {i : Instr} (h : Effect i s t) :
    t.agenda = s.agenda ∧ t.replies = s.replies ∧ t.cfg = s.cfg := by
  cases h <;> exact ⟨rfl, rfl, rfl⟩

/-- A step of the engine leaves the turns, the answers and the configuration. -/
theorem engineStep_shell (h : engineStep s = .next t) :
    t.agenda = s.agenda ∧ t.replies = s.replies ∧ t.cfg = s.cfg := by
  rcases engineStep_cases h with ⟨-, rfl⟩ | ⟨-, -, rfl⟩ | ⟨_, _, -, -, -, he⟩ | ⟨_, _, -, -, -, rfl⟩
  · exact ⟨rfl, rfl, rfl⟩
  · exact ⟨rfl, rfl, rfl⟩
  · exact (exec_effect he).shell
  · exact ⟨rfl, rfl, rfl⟩

/-- A write leaves the turns, the answers and the configuration. -/
theorem hostWrite_shell (s : State) (size : Size) (off : Nat) (strobes : BitVec 4) (v : Word) :
    (s.hostWrite size off strobes v).agenda = s.agenda ∧ (s.hostWrite size off strobes v).replies = s.replies ∧
      (s.hostWrite size off strobes v).cfg = s.cfg := by
  rcases hostWrite_cases s size off strobes v with h | ⟨-, h⟩ | ⟨-, h⟩ <;> rw [h]
  · exact ⟨rfl, rfl, rfl⟩
  · cases hv : v.getLsbD 16
    · rw [writeCtrl_of_not_srst hv]; exact ⟨rfl, rfl, rfl⟩
    · rw [writeCtrl_of_srst hv]; exact ⟨rfl, rfl, rfl⟩
  · rcases offerCommand_cases s v with ⟨-, h⟩ | ⟨-, h⟩ | ⟨-, h⟩ <;> rw [h] <;> exact ⟨rfl, rfl, rfl⟩

/-- A step takes the first turn off the agenda, adds one answer when that turn is a read, and leaves the
configuration. -/
theorem step_shell (h : step s = .next t) :
    t.agenda = s.agenda.tail ∧
      t.replies.length + (t.agenda.filter Turn.isRead).length =
        s.replies.length + (s.agenda.filter Turn.isRead).length ∧ t.cfg = s.cfg := by
  rcases step_cases h with ⟨ha, he⟩ | ⟨rest, ha, he⟩ | ⟨rest, ha, rfl⟩ | ⟨rest, size, off, ha, -, rfl⟩ |
    ⟨rest, size, off, strobes, v, ha, -, rfl⟩
  · obtain ⟨h1, h2, h3⟩ := engineStep_shell he
    exact ⟨by rw [h1, ha]; rfl, by rw [h1, h2], h3⟩
  · obtain ⟨h1, h2, h3⟩ := engineStep_shell he
    exact ⟨by rw [h1, ha]; rfl, by rw [h1, h2, ha]; rfl, h3⟩
  · exact ⟨by rw [ha]; rfl, by rw [ha]; rfl, rfl⟩
  · refine ⟨by rw [ha]; rfl, ?_, rfl⟩
    rw [ha, List.filter_cons_of_pos (show Turn.isRead _ = true from rfl)]
    simp [State.hostRead]
    omega
  · obtain ⟨h1, h2, h3⟩ := hostWrite_shell (s.setAgenda rest) size off strobes v
    exact ⟨by rw [h1, ha]; rfl, by rw [h1, h2, ha]; rfl, h3⟩

/-- A host's turn whose access reaches the block always makes its step (R51, R52). -/
theorem step_host_isNext {access : Access} {rest : List Turn} (ha : s.agenda = .host access :: rest)
    (hw : access.InWindow) : ∃ t, step s = .next t := by
  obtain ⟨off, hoff, ho⟩ : ∃ off, access.addr = Config.base + off ∧ off < 64 :=
    ⟨access.addr - Config.base, by have := hw.1; omega, by have := hw.1; have := hw.2; omega⟩
  cases access with
  | read size addr =>
    obtain rfl : addr = Config.base + off := hoff
    exact ⟨_, step_read ho ha⟩
  | write size addr strobes v =>
    obtain rfl : addr = Config.base + off := hoff
    exact ⟨_, step_write ho ha⟩

end Sys2Proof.Machine
end

