-- ==== Sys2Proof/Tests/Slice0.lean ====
section
/-! SUPPORT. The model's own tests, and for every statement that has hypotheses a state and operands that meet them.
The expected values are those of spec/95_test_vectors.md, whose row each test names. -/

namespace Sys2Proof.Tests

open Sys2Proof Sys2Proof.Machine

/-! ## Helpers -/

/-- "The state after reset with READY = 1", where every vector starts. -/
def start : State := { State.reset with ready := true }

/-- An error record with no second error. -/
def record (code opc info : Byte) : ErrorRecord := { code := code, opc := opc, info := info, multi := false }

/-- The state a next step leaves; the start state for a stop. -/
def stateOf (result : Result) : State :=
  match result with
  | .next t => t
  | .fault _ | .refused _ => start

/-- The state after the one step that runs a command word. -/
def after (s : State) (w : Nat) : State := stateOf (step (s.withFetchWord 32 w))

/-- C, X and K of program P2, T = 3. -/
def dealer : State :=
  { start with
    t := 0x03#8
    k := 0x02#8
    c := [(0, 0x2A#8), (1, 0x7B#8), (2, 0xC4#8)]
    x := [(0, 0x01#8), (1, 0x02#8)] }

/-- The two-point set of P5, with the weights V5 and P5 give it and values of 0x10 + 0x01·x. -/
def pair : State :=
  { start with
    k := 0x02#8
    x := [(0, 0x01#8), (1, 0x02#8)]
    y := [(0, 0x11#8), (1, 0x12#8)]
    w := [(0, 0xF7#8), (1, 0xF6#8)]
    wvalid := true }

/-- The three points of V5-4b and V5-4c with their weights and values. -/
def combiner : State :=
  { start with
    k := 0x03#8
    x := [(0, 0x02#8), (1, 0x04#8), (2, 0x05#8)]
    y := [(0, 0xE1#8), (1, 0x29#8), (2, 0x96#8)]
    w := [(0, 0xD0#8), (1, 0x03#8), (2, 0xD2#8)]
    wvalid := true }

/-- The start state with some identifiers and K = 3. -/
def points (i j k : Byte) : State := { start with t := 0x02#8, k := 0x03#8, x := [(0, i), (1, j), (2, k)] }

/-- An error is pending. -/
def halted : State := { start with err := record 0x06#8 0x06#8 0x00#8 }

/-- A state in which the host's access comes next. -/
def hostNext (s : State) (access : Access) : State := { s with agenda := [.host access] }

/-! ## Which command words are well formed: one ill-formed term for each check of R76 -/

/-- MUL R, #0x83, well formed: 0x02010083 (P1 step 2). -/
def mulFields : Fields := { opc := 0x02#8, rsv := 0#6, sb := false, sa := true, a := 0x00#8, b := 0x83#8 }

theorem test_wf_accepts : mulFields.wellFormed = true := by decide

theorem test_wf_opcode : Fields.opcodeOk { mulFields with opc := 0x08#8 } = false ∧
    Fields.wellFormed { mulFields with opc := 0x08#8 } = false := by decide

theorem test_wf_rsv : Fields.rsvOk { mulFields with rsv := 1#6 } = false ∧
    Fields.wellFormed { mulFields with rsv := 1#6 } = false := by decide

theorem test_wf_sa : Fields.saOk { mulFields with opc := 0x10#8 } = false ∧
    Fields.wellFormed { mulFields with opc := 0x10#8 } = false := by decide

theorem test_wf_sb : Fields.sbOk { mulFields with opc := 0x04#8, sb := true } = false ∧
    Fields.wellFormed { mulFields with opc := 0x04#8, sb := true } = false := by decide

theorem test_wf_unused_a : Fields.unusedAOk { mulFields with opc := 0x26#8, sa := false, a := 0x01#8 } = false ∧
    Fields.wellFormed { mulFields with opc := 0x26#8, sa := false, a := 0x01#8 } = false := by decide

theorem test_wf_unused_b : Fields.unusedBOk { mulFields with opc := 0x04#8 } = false ∧
    Fields.wellFormed { mulFields with opc := 0x04#8 } = false := by decide

/-! ## Decoding: each command's word, as the vectors write it out -/

theorem test_decode_arithmetic :
    decodeTableWord 32 0x00000000 = some .nop ∧
    decodeTableWord 32 0x01005783 = some (.add (.imm 0x57#8) (.imm 0x83#8)) ∧
    decodeTableWord 32 0x02020500 = some (.mul (.imm 0x05#8) .r) ∧
    decodeTableWord 32 0x0300C183 = some (.div (.imm 0xC1#8) (.imm 0x83#8)) ∧
    decodeTableWord 32 0x04010000 = some (.inv .r) ∧
    decodeTableWord 32 0x05000208 = some (.pow (.imm 0x02#8) (.imm 0x08#8)) ∧
    decodeTableWord 32 0x06005300 = some (.log (.imm 0x53#8)) ∧
    decodeTableWord 32 0x07001900 = some (.exp (.imm 0x19#8)) := by decide

theorem test_decode_evaluator :
    decodeTableWord 32 0x10000300 = some (.sett 0x03#8) ∧
    decodeTableWord 32 0x1100017B = some (.wrc 0x01#8 (.imm 0x7B#8)) ∧
    decodeTableWord 32 0x11020000 = some (.wrc 0x00#8 .r) ∧
    decodeTableWord 32 0x12000200 = some (.rdc 0x02#8) ∧
    decodeTableWord 32 0x13000500 = some (.eval (.imm 0x05#8)) ∧
    decodeTableWord 32 0x14000000 = some .evalx := by decide

theorem test_decode_interpolator :
    decodeTableWord 32 0x20000500 = some (.setk 0x05#8) ∧
    decodeTableWord 32 0x21000103 = some (.wrx 0x01#8 (.imm 0x03#8)) ∧
    decodeTableWord 32 0x22000129 = some (.wry 0x01#8 (.imm 0x29#8)) ∧
    decodeTableWord 32 0x23000000 = some (.rdx 0x00#8) ∧
    decodeTableWord 32 0x24000400 = some (.rdy 0x04#8) ∧
    decodeTableWord 32 0x2500FF00 = some (.rdw 0xFF#8) ∧
    decodeTableWord 32 0x26000000 = some .lagw ∧
    decodeTableWord 32 0x27000000 = some .lcomb ∧
    decodeTableWord 32 0x28000000 = some .interp := by decide

theorem test_decode_housekeeping : decodeTableWord 32 0x30000000 = some .zero := by decide

/-- The bytes of MUL R, #0x83 as they lie in the register window, lowest address first (R55, R81). -/
theorem test_decode_bytes :
    decode [0x83#8, 0x00#8, 0x01#8, 0x02#8, 0x77#8] = .ok (.mul .r (.imm 0x83#8), [0x77#8]) ∧
    decode [0x83#8, 0x00#8, 0x01#8] = .error .truncated := ⟨rfl, rfl⟩

/-- The six conditions of R76 in their order. -/
theorem test_decode_rejects :
    decodeWord 0xFF070101#32 = .error .undefinedOpcode ∧
    decodeWord 0x10FF0101#32 = .error .reservedBits ∧
    decodeWord 0x10030101#32 = .error .saNotAllowed ∧
    decodeWord 0x10020101#32 = .error .sbNotAllowed ∧
    decodeWord 0x26000101#32 = .error .unusedA ∧
    decodeWord 0x10000101#32 = .error .unusedB := ⟨rfl, rfl, rfl, rfl, rfl, rfl⟩

/-! ## One step of each command -/

/-- V2-1. -/
theorem test_nop : after start 0x00000000 = { start with done := true } := by decide

/-- V2-3. -/
theorem test_add : (after start 0x01005783).r = 0xD4#8 := by decide

/-- V2-65: both operands are R as it was. -/
theorem test_add_r : (after { start with r := 0x77#8 } 0x01030000).r = 0x00#8 := by decide

/-- V2-12. -/
theorem test_mul : (after start 0x02005783).r = 0xC1#8 := by decide +kernel

/-- V2-10, the reduction. -/
theorem test_mul_reduces : (after start 0x02000280).r = 0x1B#8 := by decide +kernel

/-- V2-19. -/
theorem test_div : (after start 0x0300C183).r = 0x57#8 := by decide +kernel

/-- V2-28: R and DONE as they were. -/
theorem test_div_zero : after start 0x03000000 = { start with err := record 0x01#8 0x03#8 0x00#8 } := by decide

/-- V2-70. -/
theorem test_inv : (after { start with r := 0x53#8 } 0x04010000).r = 0xCA#8 := by decide +kernel

/-- V2-36. -/
theorem test_inv_zero : (after start 0x04000000).err = record 0x01#8 0x04#8 0x00#8 := by decide

/-- V2-41. -/
theorem test_pow : (after start 0x05000208).r = 0x1B#8 := by decide +kernel

/-- V2-37: 0^0 is 1. -/
theorem test_pow_zero : (after start 0x05000000).r = 0x01#8 := by decide

/-- V2-53. -/
theorem test_log : (after start 0x06005300).r = 0x30#8 := by decide +kernel

/-- V2-56. -/
theorem test_log_zero : (after start 0x06000000).err = record 0x06#8 0x06#8 0x00#8 := by decide

/-- V2-60. -/
theorem test_exp : (after start 0x07001900).r = 0x02#8 := by decide +kernel

/-- V2-63: entry 255 is 1. -/
theorem test_exp_last : (after start 0x0700FF00).r = 0x01#8 := by decide

/-- P2 step 1. -/
theorem test_sett : (after start 0x10000300).t = 0x03#8 := by decide

/-- V6-1. -/
theorem test_sett_range : (after start 0x10000100).err = record 0x03#8 0x10#8 0x01#8 := by decide

/-- P2 step 3, over a C[1] that held another value. -/
theorem test_wrc : (after { start with c := [(1, 0x55#8), (2, 0xC4#8)] } 0x1100017B).c = [(1, 0x7B#8), (2, 0xC4#8)] := by
  decide

/-- V6-10. -/
theorem test_wrc_range : (after start 0x1100FF01).err = record 0x07#8 0x11#8 0xFF#8 := by decide

/-- C[2] of P2 (R133). -/
theorem test_rdc : (after dealer 0x12000200).r = 0xC4#8 := by decide

/-- V3: f(2) is E1. -/
theorem test_eval : (after dealer 0x13000200).r = 0xE1#8 := by decide +kernel

/-- V6-8. -/
theorem test_eval_zero : (after { start with t := 0x02#8 } 0x13000000).err = record 0x05#8 0x13#8 0x00#8 := by decide

/-- P2 step 11 on three points. -/
theorem test_evalx : (after { dealer with k := 0x03#8, x := [(0, 0x01#8), (1, 0x02#8), (2, 0x03#8)] } 0x14000000).y =
    [(0, 0x95#8), (1, 0xE1#8), (2, 0x5E#8)] := by decide +kernel

/-- V6-5: T > K. -/
theorem test_evalx_order : (after dealer 0x14000000).err = record 0x03#8 0x14#8 0x03#8 := by decide

/-- V5-4i: WVALID is cleared even for the same K. -/
theorem test_setk : (after combiner 0x20000300).k = 0x03#8 ∧ (after combiner 0x20000300).wvalid = false := by decide

/-- V6-3. -/
theorem test_setk_range : (after start 0x20000000).err = record 0x04#8 0x20#8 0x00#8 := by decide

/-- V5-4h. -/
theorem test_wrx : Memory.read (after combiner 0x21000103).x 1 = 0x03#8 ∧ (after combiner 0x21000103).wvalid = false := by
  decide

/-- V5-4g. -/
theorem test_wry : Memory.read (after combiner 0x22000041).y 0 = 0x41#8 ∧ (after combiner 0x22000041).wvalid = true := by
  decide

/-- X[1] of V5-4b (R155). -/
theorem test_rdx : (after combiner 0x23000100).r = 0x04#8 := by decide

/-- Y[2] of V5-4c (R156). -/
theorem test_rdy : (after combiner 0x24000200).r = 0x96#8 := by decide

/-- V5-4d. -/
theorem test_rdw : (after combiner 0x25000000).r = 0xD0#8 := by decide

/-- V6-11. -/
theorem test_rdw_range : (after start 0x2500FF00).err = record 0x07#8 0x25#8 0xFF#8 := by decide

/-- P5 step 4. -/
theorem test_lagw : (after { pair with w := [], wvalid := false } 0x26000000).w = [(0, 0xF7#8), (1, 0xF6#8)] := by
  decide +kernel

/-- V6-16. -/
theorem test_lagw_duplicate : (after (points 0x07#8 0x09#8 0x07#8) 0x26000000).err = record 0x02#8 0x26#8 0x02#8 := by
  decide

/-- V5-4c. -/
theorem test_lcomb : (after combiner 0x27000000).r = 0x2A#8 := by decide +kernel

/-- V6-12. -/
theorem test_lcomb_stale : (after start 0x27000000).err = record 0x08#8 0x27#8 0x00#8 := by decide

/-- V5-4f: two shares of P2 give B9. -/
theorem test_interp : (after { pair with y := [(0, 0x95#8), (1, 0xE1#8)], w := [] } 0x28000000).r = 0xB9#8 := by
  decide +kernel

/-- V6-15: ZERO_ID comes before DUPLICATE_ID. -/
theorem test_interp_zero_id : (after (points 0x01#8 0x00#8 0x01#8) 0x28000000).err = record 0x05#8 0x28#8 0x01#8 := by
  decide

/-- V6-17: T and K are kept, the files, R and WVALID are not. -/
theorem test_zero : after { combiner with r := 0x07#8, t := 0x02#8 } 0x30000000 =
    { start with t := 0x02#8, k := 0x03#8, done := true } := by decide

/-- An illegal word (R76): OPC of the word, INFO 0. -/
theorem test_illegal : (after start 0x08123456).err = record 0x09#8 0x08#8 0x00#8 := by decide

/-! ## The register window -/

/-- V7-2, V7-3. -/
theorem test_lanes :
    start.readAt .byte 0x00 = 0x01#32 ∧ start.readAt .byte 0x03 = 0x47#32 ∧ start.readAt .half 0x02 = 0x4746#32 ∧
    start.readAt .half 0x01 = 0#32 ∧ start.readAt .word 0x06 = 0#32 := by decide

/-- V7 and P3's end: PARAM, STATUS and CFG. -/
theorem test_registers :
    start.readAt .word 0x04 = 0x1B03FFFF#32 ∧ start.readAt .word 0x0C = 0x00000001#32 ∧
    State.readAt { combiner with done := true } .word 0x0C = 0x00000015#32 ∧
    combiner.readAt .word 0x1C = 0x00000300#32 := by decide

/-- V6-20: the error register of a second error. -/
theorem test_err_register :
    (State.offerCommand { start with err := record 0x03#8 0x10#8 0x01#8 } 0x10000000#32).readAt .word 0x18 =
      0x80011003#32 := by decide

/-- V6-22: an overrun, seen while the first command is pending, and the status after it. -/
theorem test_overrun :
    (start.offerCommand 0x02000203#32).pending = some 0x02000203#32 ∧
    (State.offerCommand (start.offerCommand 0x02000203#32) 0x01000101#32).pending = some 0x02000203#32 ∧
    (State.offerCommand (start.offerCommand 0x02000203#32) 0x01000101#32).readAt .word 0x18 = 0x0000010A#32 := by
  decide

/-- V6-24. -/
theorem test_irq :
    (State.irq { start with ieErr := true, err := record 0x06#8 0x06#8 0x00#8 }) = true ∧
    (State.writeCtrl { start with ieErr := true, err := record 0x06#8 0x06#8 0x00#8 } 0x00000102#32).irq = false := by
  decide

/-- V7-6. -/
theorem test_ctrl_all_ones : State.writeCtrl { combiner with done := true } 0xFFFFFFFF#32 = State.reset := by decide

/-- V7-3, V7-4, V7-5: writes with no effect. -/
theorem test_writes_without_effect :
    start.hostWrite .word 0x12 0xF#4 0x01000101#32 = start ∧ start.hostWrite .byte 0x13 0x1#4 0x02#32 = start ∧
    start.hostWrite .word 0x20 0xF#4 0xFFFFFFFF#32 = start := by decide

/-- A host read is a step (R52): ID is answered. -/
theorem test_host_read : step (hostNext start (.read .word (Config.base + 0x00))) =
    .next { start with replies := [0x47463801#32] } := by
  rw [step_read (rest := []) (by omega) rfl]; rfl

/-- V7-2 as steps: the upper half of ID, and a misaligned read. -/
theorem test_narrow_reads :
    step (hostNext start (.read .half (Config.base + 0x02))) = .next { start with replies := [0x4746#32] } ∧
    step (hostNext start (.read .half (Config.base + 0x01))) = .next { start with replies := [0#32] } := by
  constructor <;> (rw [step_read (rest := []) (by omega) rfl]; rfl)

/-- V6-23: a CMD write while READY = 0 is dropped with CMD_OVERRUN. -/
theorem test_host_write_not_ready : step (hostNext State.reset (.write .word (Config.base + 0x10) 0xF#4 0x01000102#32)) =
    .next { State.reset with err := record 0x0A#8 0x01#8 0x00#8 } := by
  rw [step_write (rest := []) (by omega) rfl]; rfl

/-- A hard reset keeps nothing (R250, R251). -/
theorem test_reset : step { combiner with agenda := [.reset] } = .next State.reset := rfl

/-- The reset sequence ends (R252). -/
theorem test_reset_ends : step State.reset = .next start := rfl

/-! ## The end of a run (R263) -/

/-- An error is pending, RESULT has been read once, and ERR_CLR is still planned. -/
def finished : State := { halted with agenda := [Turn.ctrlWrite 0x00000100#32], replies := [0x05#32] }

/-- The run ends before the planned ERR_CLR, so CODE at its end is the error's. -/
theorem test_run_ends_before_clear : RunEndsAt 1 finished finished ∧ ¬ NoErrorPending finished :=
  ⟨.here ⟨by simp [finished, Turn.ctrlWrite, Turn.cmdWrite], rfl, by decide⟩,
    show ¬ finished.err.code = 0x00#8 by decide⟩

/-- A CMD write to come keeps a run going, BUSY = 0 or not. -/
theorem test_run_goes_on (v : Word) : ¬ EndOfRun 0 { start with agenda := [Turn.cmdWrite v] } :=
  fun h => h.1 v (by simp)

/-! ## Assembly (R79, R80) -/

/-- The example of R79, and a mnemonic in lower case with a decimal and a comment. -/
theorem test_assemble :
    (assembleLine "MUL R, #0x83".toList).map encode = some 0x02010083#32 ∧
    (assembleLine "sett #3 ; T".toList).map encode = some 0x10000300#32 ∧
    assembleLine "SETT R".toList = none := by decide

/-- R80: CLRR and STC #0 (P8 step 3). -/
theorem test_assemble_pseudo :
    (assembleLine "CLRR".toList).map encode = some 0x01000000#32 ∧
    (assembleLine "STC #0".toList).map encode = some 0x11020000#32 := by decide

/-! ## Witnesses: the hypotheses of each statement, met together

Each clause has its own line, at a boundary of its range. -/

theorem config_ok : configOk Config.core11B = true := by decide +kernel

/-- GF(2^8) modulo 0x11B has 0xF6, the inverse of 0x03, as another generator. -/
theorem other_generator_ok : configOk { Config.core11B with gen := 0xF6#8 } = true := by decide +kernel

/-- The smallest files R8 allows. -/
def tiny : State := { start with cfg := { Config.core11B with nc := 2, np := 2 } }

theorem witness_IllegalWordsAreRule76 :
    (start.withPendingWord 0x04000105#32).ready = true ∧
    (start.withPendingWord 0x04000105#32).pending = some 0x04000105#32 ∧
    (start.withPendingWord 0x04000105#32).agenda = .engine :: [] ∧
    firstIllegal (Fields.ofWord 0x04000105#32) ≠ none := by decide

theorem witness_LegalWordsReencodeCanonically :
    decodeWord (Fields.toWord { mulFields with a := 0x55#8 }) = .ok (.mul .r (.imm 0x83#8)) := rfl

theorem witness_OperandsFollowSelectBits :
    decodeWord 0x02020500#32 = .ok (.mul (.imm 0x05#8) .r) ∧
    decodeWord 0x13010000#32 = .ok (.eval .r) ∧
    decodeWord 0x2500FF00#32 = .ok (.rdw 0xFF#8) ∧
    decodeWord 0x11020000#32 = .ok (.wrc 0x00#8 .r) ∧
    mulFields.sa = true ∧ Fields.sb { mulFields with sb := true } = true := ⟨rfl, rfl, rfl, rfl, rfl, rfl⟩

theorem witness_PseudoInstructionsMean : (0xFE#8 : Byte).toNat < start.cfg.nc := by decide

theorem witness_EngineRunsPendingCommand :
    State.ready { start with pending := some 0x00000000#32 } = true ∧
    State.pending { start with pending := some 0x00000000#32 } = some 0x00000000#32 ∧
    decodeWord 0x00000000#32 = .ok .nop ∧
    State.agenda { start with pending := some 0x00000000#32 } = [] ∧
    (start.withPendingWord 0x00000000#32).agenda = .engine :: [] := ⟨rfl, rfl, rfl, rfl, rfl⟩

theorem witness_EngineEndsResetOrIdles :
    (State.reset.ready = false ∧ State.reset.agenda = [] ∧
      State.agenda { State.reset with agenda := [.engine] } = .engine :: []) ∧
    (start.ready = true ∧ start.pending = none ∧ start.agenda = [] ∧
      State.agenda { start with agenda := [.engine] } = .engine :: []) := by decide

theorem witness_NopChangesOnlyDone :
    BitVec.extractLsb' 24 8 0x00000001#32 = 0x00#8 ∧ 0x00000001#32 ≠ 0x00000000#32 := by decide

theorem witness_MulIsProductModuloPoly : start.cfg.poly.getLsbD 8 = true := by decide

theorem witness_DivIsUniqueQuotient : configOk start.cfg = true ∧ operandValue start (.imm 0x01#8) ≠ 0x00#8 :=
  ⟨config_ok, by decide⟩

theorem witness_InvIsUniqueInverse : configOk start.cfg = true ∧ operandValue start (.imm 0xFF#8) ≠ 0x00#8 :=
  ⟨config_ok, by decide⟩

theorem witness_DivisionByZeroRaises : operandValue start .r = 0x00#8 := by decide

theorem witness_PowIsIteratedProduct : configOk start.cfg = true ∧ operandValue start .r = 0x00#8 ∧
    operandValue start (.imm 0xFF#8) ≠ 0x00#8 := ⟨config_ok, by decide, by decide⟩

theorem witness_LogIsUniqueExponent :
    configOk start.cfg = true ∧ operandValue start (.imm 0xF6#8) ≠ 0x00#8 ∧ expEntry start.cfg 254 = 0xF6#8 ∧
    operandValue start .r = 0x00#8 := ⟨config_ok, by decide, by decide +kernel, by decide⟩

theorem witness_ExpFollowsTheTable :
    operandValue start .r = 0x00#8 ∧ operandValue start (.imm 0xFF#8) = 0xFF#8 ∧
    (operandValue start (.imm 0xFE#8)).toNat = (0xFD#8 : Byte).toNat + 1 ∧
    (operandValue start (.imm 0xFE#8)).toNat ≤ 254 ∧
    (operandValue start (.imm 0x01#8)).toNat = (0x00#8 : Byte).toNat + 1 := by decide

theorem witness_ExpTableIsPowersOfGenerator : configOk Config.core11B = true ∧ (0xFF#8 : Byte) ≠ 0x00#8 :=
  ⟨config_ok, by decide⟩

theorem witness_TableFormEqualsProduct : configOk Config.core11B = true := config_ok

theorem witness_FieldLawsHold : configOk Config.core11B = true ∧ (0x01#8 : Byte) ≠ 0x00#8 := ⟨config_ok, by decide⟩

theorem witness_GeneratorAffectsOnlyLogAndExp :
    configOk start.cfg = true ∧ configOk { start.cfg with gen := 0xF6#8 } = true ∧
    (∀ a, Instr.nop ≠ .log a) ∧ (∀ a, Instr.nop ≠ .exp a) ∧
    exec .nop start = .next { start with done := true } :=
  ⟨config_ok, other_generator_ok, fun _ h => Instr.noConfusion h, fun _ h => Instr.noConfusion h, rfl⟩

theorem witness_SettStoresThreshold :
    (2 ≤ (0x02#8 : Byte).toNat ∧ (0x02#8 : Byte).toNat ≤ tiny.cfg.nc) ∧
    ((0x01#8 : Byte).toNat < 2) ∧ (tiny.cfg.nc < (0x03#8 : Byte).toNat) := by decide

theorem witness_WrcStoresOneCoefficient :
    (0x01#8 : Byte).toNat < tiny.cfg.nc ∧ tiny.cfg.nc ≤ (0x02#8 : Byte).toNat := by decide

theorem witness_WrxAndWryStoreOneEntry :
    (0x01#8 : Byte).toNat < tiny.cfg.np ∧ tiny.cfg.np ≤ (0x02#8 : Byte).toNat := by decide

theorem witness_FileReadsReturnOneEntry :
    (0xFE#8 : Byte).toNat < start.cfg.nc ∧ start.cfg.nc ≤ (0xFF#8 : Byte).toNat ∧
    (0xFE#8 : Byte).toNat < start.cfg.np ∧ start.cfg.np ≤ (0xFF#8 : Byte).toNat := by decide

theorem witness_EvalIsPowerSum : 2 ≤ (points 1 2 3).t.toNat ∧ operandValue (points 1 2 3) (.imm 0x01#8) ≠ 0x00#8 ∧
    (points 1 2 3).cfg.poly.getLsbD 8 = true := by decide

theorem witness_EvalChecksInOrder :
    State.t { start with t := 0x01#8 } = 0x01#8 ∧ (0x01#8 : Byte).toNat < 2 ∧
    2 ≤ (points 1 2 3).t.toNat ∧ operandValue (points 1 2 3) .r = 0x00#8 := by decide

theorem witness_EvalReadsOnlyItsCoefficients :
    (∀ i < dealer.t.toNat, Memory.read (dealer.c ++ [(3, 0x99#8)]) i = Memory.read dealer.c i) ∧
    2 ≤ dealer.t.toNat ∧ operandValue { dealer with c := dealer.c ++ [(3, 0x99#8)] } (.imm 0x05#8) =
      operandValue dealer (.imm 0x05#8) ∧ operandValue dealer (.imm 0x05#8) ≠ 0x00#8 := by decide

theorem witness_IdentifierCheckReportsSmallest :
    (Memory.read (points 1 0 0).x 1 = 0x00#8 ∧ ∀ j < 1, Memory.read (points 1 0 0).x j ≠ 0x00#8) ∧
    ((∀ j < 3, Memory.read (points 7 9 7).x j ≠ 0x00#8) ∧
      (∃ j < 2, Memory.read (points 7 9 7).x j = Memory.read (points 7 9 7).x 2) ∧
      ∀ l < 2, ∀ j < l, Memory.read (points 7 9 7).x j ≠ Memory.read (points 7 9 7).x l) ∧
    (∀ k < 3, Memory.read (points 1 2 3).x k ≠ 0x00#8) ∧
    ∀ k < 3, ∀ j < k, Memory.read (points 1 2 3).x j ≠ Memory.read (points 1 2 3).x k := by decide

theorem witness_EvalxWritesShares :
    let s := { points 1 2 3 with t := 0x03#8 }
    2 ≤ s.t.toNat ∧ 2 ≤ s.k.toNat ∧ s.t.toNat ≤ s.k.toNat ∧ checkIds s.k.toNat s.x = none := by decide

theorem witness_EvalxChecksInOrder :
    State.t { start with t := 0x01#8 } = 0x01#8 ∧ (0x01#8 : Byte).toNat < 2 ∧
    (2 ≤ (0x02#8 : Byte).toNat ∧ start.k.toNat < 2) ∧
    (2 ≤ dealer.t.toNat ∧ 2 ≤ dealer.k.toNat ∧ dealer.k.toNat < dealer.t.toNat) ∧
    (2 ≤ (points 7 9 7).t.toNat ∧ 2 ≤ (points 7 9 7).k.toNat ∧ (points 7 9 7).t.toNat ≤ (points 7 9 7).k.toNat ∧
      checkIds (points 7 9 7).k.toNat (points 7 9 7).x = some (.duplicateId, 0x02#8)) := by decide

theorem witness_SetkStoresCount :
    (2 ≤ (0x02#8 : Byte).toNat ∧ (0x02#8 : Byte).toNat ≤ tiny.cfg.np) ∧
    ((0x01#8 : Byte).toNat < 2) ∧ (tiny.cfg.np < (0x03#8 : Byte).toNat) := by decide

theorem witness_LagwComputesWeights : configOk pair.cfg = true ∧ 2 ≤ pair.k.toNat ∧ checkIds pair.k.toNat pair.x = none :=
  ⟨config_ok, by decide, by decide⟩

theorem witness_LagwAndInterpChecksInOrder :
    start.k.toNat < 2 ∧ 2 ≤ (points 1 0 1).k.toNat ∧
    checkIds (points 1 0 1).k.toNat (points 1 0 1).x = some (.zeroId, 0x01#8) := by decide

theorem witness_LcombSumsWeightedValues : pair.wvalid = true ∧ start.wvalid = false := by decide

theorem witness_InterpIsLagwThenLcomb :
    configOk pair.cfg = true ∧ 2 ≤ pair.k.toNat ∧ checkIds pair.k.toNat pair.x = none :=
  ⟨config_ok, by decide, by decide⟩

theorem pair_inv : BlockInv pair where
  config := config_ok
  threshold := by decide
  count := by decide
  files := by decide
  weights := fun _ => ⟨by decide, by decide, by decide +kernel⟩
  errorCode := by decide
  errorClear := by decide
  starting := by decide

theorem witness_SharesRecombineToSecret :
    2 ≤ 2 ∧ 2 ≤ pair.k.toNat ∧
    (∀ k < pair.k.toNat, Memory.read pair.y k =
      horner pair.cfg 2 [(0, 0x10#8), (1, 0x01#8)] (Memory.read pair.x k)) ∧
    configOk pair.cfg = true ∧ checkIds pair.k.toNat pair.x = none ∧ BlockInv pair ∧ pair.wvalid = true :=
  ⟨by decide, by decide, by decide +kernel, config_ok, by decide, pair_inv, rfl⟩

/-- A dealer of the two shares that `pair` holds, in the other order. -/
def pairDealer : State :=
  { start with
    t := 0x02#8
    k := 0x02#8
    c := [(0, 0x10#8), (1, 0x01#8)]
    x := [(0, 0x02#8), (1, 0x01#8)] }

theorem witness_SplitThenCombineGivesSecret :
    configOk pairDealer.cfg = true ∧ 2 ≤ pairDealer.t.toNat ∧ pairDealer.t.toNat ≤ pairDealer.k.toNat ∧
    checkIds pairDealer.k.toNat pairDealer.x = none ∧ pair.cfg = pairDealer.cfg ∧
    pairDealer.t.toNat ≤ pair.k.toNat ∧ checkIds pair.k.toNat pair.x = none ∧
    ∀ k < pair.k.toNat, ∃ j < pairDealer.k.toNat,
      Memory.read pair.x k = Memory.read (stateOf (exec .evalx pairDealer)).x j ∧
      Memory.read pair.y k = Memory.read (stateOf (exec .evalx pairDealer)).y j :=
  ⟨config_ok, by decide, by decide, by decide, rfl, by decide, by decide, by decide +kernel⟩

theorem witness_WeightsSumToOne : configOk Config.core11B = true ∧ 1 ≤ 1 ∧ checkIds 1 pair.x = none :=
  ⟨config_ok, by decide, by decide⟩

theorem witness_ErrorsArePrecise :
    exec .nop start = .next { start with done := true } ∧
    exec (.log .r) start = .next { start with err := record 0x06#8 0x06#8 0x00#8 } := ⟨rfl, rfl⟩

theorem witness_CommandWriteIsAcceptedOrDropped (v : Word) :
    (∀ s : State, State.agenda { s with agenda := [Turn.cmdWrite v] } = Turn.cmdWrite v :: []) ∧
    State.reset.ready = false ∧ State.busy { start with pending := some v } = true ∧
    (halted.ready = true ∧ halted.busy = false ∧ halted.err.code ≠ 0x00#8) ∧
    (start.ready = true ∧ start.busy = false ∧ start.err.code = 0x00#8) :=
  ⟨fun _ => rfl, rfl, rfl, by decide, by decide⟩

theorem witness_PendingErrorHaltsCommands :
    halted.ready = true ∧ halted.pending = none ∧ halted.err.code ≠ 0x00#8 ∧ (∀ rest, halted.agenda ≠ .reset :: rest) ∧
    (∀ v rest, halted.agenda = Turn.ctrlWrite v :: rest → v.getLsbD 8 = false ∧ v.getLsbD 16 = false) ∧
    step halted = .next halted :=
  ⟨rfl, rfl, by decide, fun _ h => by simp [halted, start, State.reset] at h,
    fun _ _ h => by simp [halted, start, State.reset] at h, rfl⟩

theorem witness_OnlyNamedCommandsWriteEachRegister :
    (exec (.sett 0x03#8) start = .next { start with t := 0x03#8, done := true } ∧ (0x03#8 : Byte) ≠ start.t) ∧
    (exec (.setk 0x03#8) start = .next { start with k := 0x03#8, done := true } ∧ (0x03#8 : Byte) ≠ start.k) ∧
    (exec (.wrc 0x00#8 (.imm 0x01#8)) start = .next { start with c := [(0, 0x01#8)], done := true } ∧
      [(0, 0x01#8)] ≠ start.c) ∧
    (exec (.wrx 0x00#8 (.imm 0x01#8)) start = .next { start with x := [(0, 0x01#8)], done := true } ∧
      [(0, 0x01#8)] ≠ start.x) ∧
    (exec (.wry 0x00#8 (.imm 0x01#8)) start = .next { start with y := [(0, 0x01#8)], done := true } ∧
      [(0, 0x01#8)] ≠ start.y) ∧
    (∃ t, exec .zero pair = .next t ∧ t.w ≠ pair.w) ∧
    exec .nop start = .next { start with done := true } :=
  ⟨⟨rfl, by decide⟩, ⟨rfl, by decide⟩, ⟨rfl, by decide⟩, ⟨rfl, by decide⟩, ⟨rfl, by decide⟩,
    ⟨_, rfl, by decide⟩, rfl⟩

/-- The two points before LAGW. -/
def stale : State := { pair with wvalid := false }

/-- LAGW on the two points completes and sets WVALID (P5 step 4). -/
theorem lagw_pair : ∃ t, exec .lagw stale = .next t ∧ Completed stale t ∧ t.wvalid = true := by
  obtain ⟨ws, hw⟩ := lagWeights_isSome (cfg := stale.cfg) config_ok (n := 2) (x := stale.x) (by decide)
  have h : exec .lagw stale = succeedWith (lagWeights stale.cfg 2 stale.x) stale.storeWeights := rfl
  rw [hw] at h
  exact ⟨_, h, ⟨rfl, rfl, rfl, rfl, rfl, rfl, rfl, rfl, rfl⟩, rfl⟩

theorem witness_WvalidSettersAndClearers :
    (∃ t, exec .lagw stale = .next t ∧ Completed stale t ∧ t.wvalid = true) ∧
    (∃ t, exec (.setk 0x02#8) pair = .next t ∧ Completed pair t ∧ pair.err.code = 0x00#8) ∧
    (∃ t, step (pair.withPendingWord 0x30000000#32) = .next t ∧ t.wvalid ≠ pair.wvalid) ∧
    (∃ t, step { pair with agenda := [.reset] } = .next t ∧ t.wvalid ≠ pair.wvalid) ∧
    start.wvalid = false :=
  ⟨lagw_pair, ⟨_, rfl, ⟨rfl, rfl, rfl, rfl, rfl, rfl, rfl, rfl, rfl⟩, rfl⟩, ⟨_, rfl, by decide⟩, ⟨_, rfl, by decide⟩, rfl⟩

theorem witness_HostReadsHaveNoSideEffect :
    (hostNext start (.read .byte (Config.base + 0x3F))).agenda = .host (.read .byte (Config.base + 0x3F)) :: [] ∧
    (hostNext start (.read .half (Config.base + 0x01))).agenda = .host (.read .half (Config.base + 0x01)) :: [] ∧
    0x3F < 64 ∧ 0x01 < 64 := ⟨rfl, rfl, by decide, by decide⟩

theorem witness_RegistersReadTheirFields :
    (hostNext start (.read .word (Config.base + 0x3C))).agenda = .host (.read .word (Config.base + 0x3C)) :: [] ∧
    start.cfg.nc < 256 ∧ start.cfg.np < 256 := ⟨rfl, by decide, by decide⟩

theorem witness_SubwordAndMisalignedAccesses (v : Word) :
    (hostNext start (.write .byte (Config.base + 0x13) 0xF#4 v)).agenda =
      .host (.write .byte (Config.base + 0x13) 0xF#4 v) :: [] ∧
    (hostNext start (.write .word (Config.base + 0x10) 0x7#4 v)).agenda =
      .host (.write .word (Config.base + 0x10) 0x7#4 v) :: [] ∧
    (hostNext start (.write .word (Config.base + 0x3F) 0xF#4 v)).agenda =
      .host (.write .word (Config.base + 0x3F) 0xF#4 v) :: [] ∧
    Size.byte ≠ .word ∧ 0x7#4 ≠ 0xF#4 ∧ (0x3F ≠ 0x08 ∧ 0x3F ≠ 0x10) ∧
    0x3E % 2 = 0 ∧ 0x3F % 2 = 1 ∧ 0x3F % 4 ≠ 0 := ⟨rfl, rfl, rfl, by decide⟩

/-- The first address above the window. One below it depends on BASE, which is open (D18). -/
theorem witness_AccessesOutsideTheWindowAreRefused (v : Word) :
    Config.base + 64 ≤ Config.base + 64 ∧
    (hostNext start (.read .word (Config.base + 64))).agenda = .host (.read .word (Config.base + 64)) :: [] ∧
    (hostNext start (.write .word (Config.base + 64) 0xF#4 v)).agenda =
      .host (.write .word (Config.base + 64) 0xF#4 v) :: [] := ⟨le_refl _, rfl, rfl⟩

theorem witness_CtrlWriteEffects (v : Word) :
    State.agenda { start with agenda := [Turn.ctrlWrite v] } = Turn.ctrlWrite v :: [] ∧
    BitVec.getLsbD 0x00000303#32 16 = false ∧ BitVec.getLsbD 0x00010000#32 16 = true := ⟨rfl, rfl, rfl⟩

theorem witness_InterruptFollowsItsCauses :
    (∃ t, exec .nop { start with ieDone := true } = .next t ∧ Completed { start with ieDone := true } t) ∧
    (∃ t, RaisedFrom { start with ieErr := true } t .logZero 0x06#8 0x00#8) ∧
    (∃ t, step { start with agenda := [Turn.ctrlWrite 0x00000303#32] } = .next t) ∧
    BitVec.getLsbD 0x00000303#32 8 = true ∧ BitVec.getLsbD 0x00000303#32 9 = true ∧
    BitVec.getLsbD 0x00000000#32 0 = false ∧ BitVec.getLsbD 0x00000000#32 1 = false ∧
    BitVec.getLsbD 0x00010000#32 16 = true :=
  ⟨⟨_, rfl, rfl, rfl, rfl, rfl, rfl, rfl, rfl, rfl, rfl⟩, ⟨_, rfl⟩, ⟨_, step_ctrlWrite (rest := []) rfl⟩, rfl, rfl, rfl, rfl,
    rfl⟩

theorem witness_HostAccessesLeaveDataAndAcceptedCommand :
    let s := { start with pending := some 0x00000000#32, agenda := [Turn.cmdWrite 0x01000000#32] }
    (∃ t, step s = .next t) ∧ s.pending = some 0x00000000#32 ∧
    ∀ v, Turn.cmdWrite 0x01000000#32 = Turn.ctrlWrite v → v.getLsbD 16 = false :=
  ⟨⟨_, step_cmdWrite (rest := []) rfl⟩, rfl, fun v h => by simp [Turn.cmdWrite, Turn.ctrlWrite] at h⟩

theorem witness_ResetRestoresEveryValue :
    State.agenda { pair with agenda := [.reset] } = .reset :: [] ∧
    State.agenda { pair with agenda := [Turn.ctrlWrite 0x00010000#32] } = Turn.ctrlWrite 0x00010000#32 :: [] ∧
    BitVec.getLsbD 0x00010000#32 16 = true := ⟨rfl, rfl, rfl⟩

theorem witness_EveryCommandCompletes : configOk start.cfg = true := config_ok

theorem witness_EngineTurnMakesProgress :
    configOk (start.withPendingWord 0xFFFFFFFF#32).cfg = true ∧
    (start.withPendingWord 0xFFFFFFFF#32).agenda = .engine :: [] ∧ start.agenda = [] ∧
    (start.withPendingWord 0xFFFFFFFF#32).ready = true := ⟨config_ok, rfl, rfl, rfl⟩

theorem witness_StepKeepsConfiguration : step State.reset = .next start := rfl

theorem witness_StepKeepsInvariant : BlockInv pair ∧ step pair = .next pair := ⟨pair_inv, rfl⟩

theorem witness_RunEndsAtOneState :
    RunEndsAt 1 finished finished ∧ EndOfRun 0 start ∧ (∀ v, Turn.cmdWrite v ∉ [Turn.ctrlWrite 0x00010000#32]) ∧
    configOk start.cfg = true ∧
    (∀ access, Turn.host access ∈ (hostNext start (.read .word (Config.base + 0x14))).agenda → access.InWindow) ∧
    1 ≤ (hostNext start (.read .word (Config.base + 0x14))).replies.length +
      ((hostNext start (.read .word (Config.base + 0x14))).agenda.filter Turn.isRead).length := by
  refine ⟨test_run_ends_before_clear.1, ⟨fun v h => by simp [start, State.reset] at h, rfl, by decide⟩,
    fun v h => by simp [Turn.ctrlWrite, Turn.cmdWrite] at h, config_ok, fun access h => ?_, Nat.le_refl 1⟩
  obtain rfl : access = .read .word (Config.base + 0x14) := by simpa [hostNext] using h
  exact ⟨Nat.le_add_right _ _, Nat.add_lt_add_left (by decide) _⟩

end Sys2Proof.Tests
end

/-! # Scope (00_scope.md)

SUPPORT. The proofs for the reset state, for the configuration, which no step changes, and for GEN, which no command
but LOG and EXP depends on. -/

namespace Sys2Proof

/-- The configuration with another GEN. -/
def Config.withGen (cfg : Config) (g : Byte) : Config := { cfg with gen := g }

namespace Machine

/-! ## The reset state and the configuration -/

/-- Settles O59, field by field: T, K and the error record are 0 and the files are empty, in the default configuration. -/
theorem resetMeetsInvariant : Obligations.ResetMeetsInvariant where
  config := Tests.config_ok
  threshold := .inl rfl
  count := .inl rfl
  files := State.reset_files_wf
  weights := fun h => Bool.noConfusion h
  errorCode := Nat.zero_le _
  errorClear := fun _ => rfl
  starting := fun _ => ⟨rfl, rfl, rfl, rfl, rfl, rfl, rfl, rfl, rfl, rfl⟩

/-- Settles O57, from what a step leaves of the shell of the state. -/
theorem stepKeepsConfiguration : Obligations.StepKeepsConfiguration := by
  intro s t h
  obtain ⟨-, -, hcfg⟩ := step_shell h
  exact hcfg

/-! ## Exponentiation as a product -/

section
variable {cfg : Config}

/-- One more copy of an element is one more multiplication by it. -/
theorem gfProduct_replicate_succ (cfg : Config) (n : Nat) (a : Byte) :
    gfProduct cfg (List.replicate (n + 1) a) = gfMul cfg (gfProduct cfg (List.replicate n a)) a := by
  rw [List.replicate_succ', gfProduct, List.foldl_append]
  rfl

/-- The product of n copies of a power of GEN is a power of GEN. -/
theorem gfProduct_replicate_genPow (hd : cfg.poly.getLsbD 8 = true) (i n : Nat) :
    gfProduct cfg (List.replicate n (genPow cfg i)) = genPow cfg (i * n) := by
  induction n with
  | zero => rfl
  | succ n ih => rw [gfProduct_replicate_succ, ih, Nat.mul_succ, genPow_add hd]

/-- In a legal configuration exponentiation is the product of n copies of the base (R105). -/
theorem gfPow_eq_gfProduct (h : configOk cfg = true) (a n : Byte) :
    gfPow cfg a n = some (gfProduct cfg (List.replicate n.toNat a)) := by
  unfold gfPow
  split
  · next hn => subst hn; rfl
  · next hn =>
    split
    · next ha =>
      obtain ⟨m, hm⟩ : ∃ m, n.toNat = m + 1 :=
        Nat.exists_eq_succ_of_ne_zero (fun h0 => hn (BitVec.eq_of_toNat_eq h0))
      rw [ha, hm, gfProduct_replicate_succ, gfMul_zero]
    · next ha =>
      obtain ⟨i, -, hi, rfl⟩ := logEntry_of_ne_zero h ha
      rw [hi, Option.map_some, expEntry_mod h, gfProduct_replicate_genPow (configOk_degree h)]

end

/-! ## Another GEN

`withGen` replaces GEN and nothing else. Multiplication does not read GEN, a quotient is the one element that multiplies
back to the dividend, and a power is a product; so no function that a command but LOG and EXP uses can tell two legal
GEN apart. -/

/-- The state in the configuration with another GEN. -/
def State.withGen (s : State) (g : Byte) : State := { s with cfg := s.cfg.withGen g }

@[simp] theorem State.withGen_k (s : State) (g : Byte) : (s.withGen g).k = s.k := rfl
@[simp] theorem State.withGen_x (s : State) (g : Byte) : (s.withGen g).x = s.x := rfl
@[simp] theorem State.withGen_cfg (s : State) (g : Byte) : (s.withGen g).cfg = s.cfg.withGen g := rfl

section
variable {cfg : Config} {g : Byte}

theorem gfMul_withGen (cfg : Config) (g : Byte) : gfMul (cfg.withGen g) = gfMul cfg := rfl

/-- A quotient of legal configurations does not depend on GEN. -/
theorem gfDiv_withGen (h : configOk cfg = true) (hg : configOk (cfg.withGen g) = true) (a b : Byte) :
    gfDiv (cfg.withGen g) a b = gfDiv cfg a b := by
  by_cases hb : b = 0x00#8
  · simp [gfDiv, hb]
  · obtain ⟨q, hq⟩ := gfDiv_isSome h a hb
    obtain ⟨q', hq'⟩ := gfDiv_isSome hg a hb
    have hmul : gfMul cfg q' b = gfMul cfg q b := (gfDiv_eq_some hg hq').trans (gfDiv_eq_some h hq).symm
    rw [hq, hq', gfMul_cancel h hb hmul]

/-- A power in legal configurations does not depend on GEN. -/
theorem gfPow_withGen (h : configOk cfg = true) (hg : configOk (cfg.withGen g) = true) (a n : Byte) :
    gfPow (cfg.withGen g) a n = gfPow cfg a n := by
  rw [gfPow_eq_gfProduct hg, gfPow_eq_gfProduct h]
  rfl

/-- The weights in legal configurations do not depend on GEN. -/
theorem lagWeights_withGen (h : configOk cfg = true) (hg : configOk (cfg.withGen g) = true) (n : Nat) (x : Memory) :
    lagWeights (cfg.withGen g) n x = lagWeights cfg n x := by
  have hfactor : lagFactor (cfg.withGen g) x = lagFactor cfg x := by
    funext k acc j
    rw [lagFactor, gfDiv_withGen h hg, gfMul_withGen, lagFactor]
  have hweight : lagW (cfg.withGen g) n x = lagW cfg n x := by
    funext k
    rw [lagW, hfactor, lagW]
  rw [lagWeights, hweight, lagWeights]

/-- Horner's loop does not depend on GEN. -/
theorem horner_withGen (cfg : Config) (g : Byte) (n : Nat) (c : Memory) (x : Byte) :
    horner (cfg.withGen g) n c x = horner cfg n c x := by
  have hfrom : ∀ n acc, hornerFrom (cfg.withGen g) c x n acc = hornerFrom cfg c x n acc := by
    intro n
    induction n with
    | zero => exact fun _ => rfl
    | succ n ih => exact fun _ => ih _
  exact hfrom n _

end

/-- What a step answers, in the configuration with another GEN. -/
def withGenResult (g : Byte) : Result → Result
  | .next s => .next (s.withGen g)
  | .fault r => .fault r
  | .refused r => .refused r

/-- Another GEN passes through a check that raises. -/
theorem withGenResult_check {c : Prop} [Decidable c] (g : Byte) (s : State) (opc info : Byte) (kind : ErrorKind)
    (k : Result) : withGenResult g (if c then fail s opc kind info else k) =
      if c then fail (s.withGen g) opc kind info else withGenResult g k :=
  apply_ite _ _ _ _

/-- Another GEN passes through a write of a value from the tables. -/
theorem withGenResult_succeedWith {α : Type} (g : Byte) (value : Option α) (write : α → State) :
    withGenResult g (succeedWith value write) = succeedWith value (fun v => (write v).withGen g) := by
  cases value <;> rfl

/-- A command but LOG and EXP does the same under another legal GEN (R9). -/
theorem exec_withGen {s : State} {g : Byte} (h : configOk s.cfg = true) (hg : configOk (s.cfg.withGen g) = true)
    {i : Instr} (hlog : ∀ a, i ≠ .log a) (hexp : ∀ a, i ≠ .exp a) :
    exec i (s.withGen g) = withGenResult g (exec i s) := by
  cases i with
  | log a => exact absurd rfl (hlog a)
  | exp a => exact absurd rfl (hexp a)
  | nop | add | mul | zero => rfl
  | sett | wrc | rdc | setk | wrx | wry | rdx | rdy | rdw | lcomb =>
    simp only [exec, execSett, execWrc, execRdc, execSetk, execWrx, execWry, execRdx, execRdy, execRdw, execLcomb,
      withGenResult_check]
    rfl
  | div a b =>
    simp only [exec, execDiv, State.withGen_cfg, gfDiv_withGen h hg, withGenResult_check, withGenResult_succeedWith]
    rfl
  | inv a =>
    simp only [exec, execInv, gfInv, State.withGen_cfg, gfDiv_withGen h hg, withGenResult_check,
      withGenResult_succeedWith]
    rfl
  | pow a n =>
    simp only [exec, execPow, State.withGen_cfg, gfPow_withGen h hg, withGenResult_succeedWith]
    rfl
  | eval x =>
    simp only [exec, execEval, State.withGen_cfg, horner_withGen, withGenResult_check]
    rfl
  | evalx =>
    have hvalues : shareValues (s.withGen g) = shareValues s :=
      congrArg (List.map · _) (funext (horner_withGen s.cfg g _ s.c))
    simp only [exec, execEvalx, hvalues, State.withGen_k, State.withGen_x, withGenResult_check]
    cases checkIds (indexOf s.k) s.x <;> rfl
  | lagw | interp =>
    simp only [exec, execLagw, execInterp, State.withGen_cfg, State.withGen_k, State.withGen_x,
      lagWeights_withGen h hg, withGenResult_check]
    cases checkIds (indexOf s.k) s.x with
    | some _ => rfl
    | none => simp only [withGenResult_succeedWith]; rfl

/-- Settles O22, from the command in the configuration with another GEN. -/
theorem generatorAffectsOnlyLogAndExp : Obligations.GeneratorAffectsOnlyLogAndExp := by
  intro s t g i h hg hlog hexp ht
  obtain ⟨-, -, hcfg⟩ := (exec_effect ht).shell
  calc exec i (s.withGen g)
    _ = .next (t.withGen g) := by rw [exec_withGen h hg hlog hexp, ht, withGenResult]
    _ = .next { t with cfg := s.cfg.withGen g } := by rw [State.withGen, hcfg]

end Machine
end Sys2Proof

/-! # State (10_state.md)

SUPPORT. The proofs for the registers and files: the invariant that every step keeps, which commands write what, the
tables, and what the window reads of the registers and writes to CTRL. -/

namespace Sys2Proof.Machine

/-! ## The invariant

An operation that is not the whole of a step keeps the invariant too, so a step keeps it because its operations do. -/

section
variable {s t : State}

/-- What every application of an action of CTRL keeps, the action keeps whatever its bit is. -/
theorem onBit_keeps {P : State → Prop} {bit : Bool} {action : State → State} (ha : ∀ u, P u → P (action u))
    (h : P s) : P (onBit bit action s) := by
  cases bit
  · exact h
  · exact ha s h

/-- The weights that LAGW and INTERP store are those of the points (R28). -/
theorem lagWeights_storeWeights {ws : List Byte} (hw : lagWeights s.cfg s.k.toNat s.x = some ws) :
    lagWeights s.cfg s.k.toNat s.x = some (Memory.take (s.storeWeights ws).w s.k.toNat) := by
  obtain ⟨hlen, -⟩ := lagWeights_eq_some hw
  rw [hw, ← hlen]
  exact congrArg some (Memory.take_writeFrom s.w ws).symm

namespace BlockInv

/-- With READY = 1 nothing is asked of the data. -/
theorem notStarting (hr : s.ready = true) {P : Prop} (h0 : s.ready = false) : P :=
  Bool.noConfusion (hr.symm.trans h0)

theorem count_le (h : BlockInv s) : s.k.toNat ≤ s.cfg.np := by
  rcases h.count with h0 | ⟨-, hk⟩
  · simp [h0]
  · exact hk

/-! ### Operations that keep it in every state -/

theorem setAgenda (h : BlockInv s) (ts : List Turn) : BlockInv (s.setAgenda ts) := { h with }

theorem hostRead (h : BlockInv s) (size : Size) (off : Nat) : BlockInv (s.hostRead size off) := { h with }

theorem setEnables (h : BlockInv s) (v : Word) : BlockInv (s.setEnables v) := { h with }

theorem becomeReady (h : BlockInv s) : BlockInv s.becomeReady := { h with starting := fun hr => Bool.noConfusion hr }

theorem clearPending (h : BlockInv s) : BlockInv (s.setPending none) :=
  { h with starting := fun hr => let ⟨_, hdata⟩ := h.starting hr; ⟨rfl, hdata⟩ }

theorem clearDone (h : BlockInv s) : BlockInv (s.setDone false) :=
  { h with starting := fun hr => let ⟨hp, _, hdata⟩ := h.starting hr; ⟨hp, rfl, hdata⟩ }

/-- Any record of R201's codes that is all 0 with CODE 0 will do. -/
theorem setErr (h : BlockInv s) {e : ErrorRecord} (hle : e.code.toNat ≤ 0x0A)
    (hclear : e.code = 0x00#8 → e = ErrorRecord.clear) : BlockInv (s.setErr e) :=
  { h with errorCode := hle, errorClear := hclear }

theorem record (h : BlockInv s) (kind : ErrorKind) (opc info : Byte) :
    BlockInv (s.setErr (s.err.record kind opc info)) :=
  h.setErr (record_code_le _ h.errorCode _ _ _) (fun h0 => absurd h0 (record_code_ne_zero _ _ _ _))

theorem raise (h : BlockInv s) (opc : Byte) (kind : ErrorKind) (info : Byte) : BlockInv (s.raise opc kind info) :=
  (h.record kind opc info).clearPending

theorem clearError (h : BlockInv s) : BlockInv s.clearError := h.setErr (Nat.zero_le _) (fun _ => rfl)

/-- A reset meets the invariant whatever the block held before. -/
theorem resetBlock (h : configOk s.cfg = true) : BlockInv s.resetBlock where
  config := h
  threshold := .inl rfl
  count := .inl rfl
  files := ⟨rfl, rfl, rfl, rfl⟩
  weights := fun hv => Bool.noConfusion hv
  errorCode := Nat.zero_le _
  errorClear := fun _ => rfl
  starting := fun _ => ⟨rfl, rfl, rfl, rfl, rfl, rfl, rfl, rfl, rfl, rfl⟩

/-! ### Host writes -/

theorem writeCtrl (h : BlockInv s) (v : Word) : BlockInv (s.writeCtrl v) :=
  onBit_keeps (fun _ hu => resetBlock hu.config)
    (onBit_keeps (fun _ hu => hu.clearDone) (onBit_keeps (fun _ hu => hu.clearError) (h.setEnables v)))

theorem offerCommand (h : BlockInv s) (v : Word) : BlockInv (s.offerCommand v) := by
  rcases offerCommand_cases s v with ⟨-, he⟩ | ⟨⟨-, -, hp⟩, he⟩ | ⟨⟨hr, -, -⟩, he⟩ <;> rw [he]
  · exact h.record _ _ _
  · exact h.setErr h.errorCode (fun h0 => absurd h0 ((isPending_iff _).1 hp))
  · exact { h with starting := notStarting hr }

theorem hostWrite (h : BlockInv s) (size : Size) (off : Nat) (strobes : BitVec 4) (v : Word) :
    BlockInv (s.hostWrite size off strobes v) := by
  rcases hostWrite_cases s size off strobes v with he | ⟨-, he⟩ | ⟨-, he⟩ <;> rw [he]
  · exact h
  · exact h.writeCtrl v
  · exact h.offerCommand v

/-! ### What a command does -/

theorem complete (h : BlockInv s) (hr : s.ready = true) : BlockInv s.complete :=
  { h with starting := notStarting hr }

theorem setR (h : BlockInv s) (hr : s.ready = true) (v : Byte) : BlockInv (s.setR v) :=
  { h with starting := notStarting hr }

theorem setY (h : BlockInv s) (hr : s.ready = true) {m : Memory} (hm : Memory.wf s.cfg.np m) :
    BlockInv (s.setY m) :=
  let ⟨hc, hx, _, hw⟩ := h.files
  { h with files := ⟨hc, hx, hm, hw⟩, starting := notStarting hr }

/-- The weights stored are those of the current points. -/
theorem storeWeights (h : BlockInv s) (hr : s.ready = true) {ws : List Byte} (h2 : 2 ≤ s.k.toNat)
    (hx : checkIds s.k.toNat s.x = none) (hw : lagWeights s.cfg s.k.toNat s.x = some ws) :
    BlockInv (s.storeWeights ws) := by
  obtain ⟨hc, hx', hy, hwf⟩ := h.files
  obtain ⟨hlen, -⟩ := lagWeights_eq_some hw
  have hk := h.count_le
  exact { h with
    files := ⟨hc, hx', hy, Memory.wf_writeFrom hwf ws (by omega)⟩
    weights := fun _ => ⟨h2, hx, lagWeights_storeWeights hw⟩
    starting := notStarting hr }

end BlockInv

/-- A command that runs after the reset sequence keeps the invariant. -/
theorem Effect.keeps_blockInv {i : Instr} (he : Effect i s t) (h : BlockInv s) (hr : s.ready = true) :
    BlockInv t := by
  have hk := h.count_le
  obtain ⟨hc, hx, hy, hw⟩ := h.files
  cases he with
  | raised opc kind info => exact h.raise opc kind info
  | nothing => exact h.complete hr
  | result v => exact (h.setR hr v).complete hr
  | threshold n hi h2 hn =>
    exact { h with threshold := .inr ⟨h2, hn⟩, starting := BlockInv.notStarting hr }
  | coefficient n v hi hn =>
    exact { h with files := ⟨Memory.wf_write hc hn _, hx, hy, hw⟩, starting := BlockInv.notStarting hr }
  | shares vs hi hl =>
    exact (h.setY hr (Memory.wf_writeFrom hy vs (by omega))).complete hr
  | count n hi h2 hn =>
    exact { h with count := .inr ⟨h2, hn⟩, weights := nofun, starting := BlockInv.notStarting hr }
  | identifier n v hi hn =>
    exact { h with
      files := ⟨hc, Memory.wf_write hx hn _, hy, hw⟩, weights := nofun, starting := BlockInv.notStarting hr }
  | value n v hi hn => exact (h.setY hr (Memory.wf_write hy hn _)).complete hr
  | weights ws hi h2 hx hw => exact (h.storeWeights hr h2 hx hw).complete hr
  | interpolated ws hi h2 hx hw => exact ((h.storeWeights hr h2 hx hw).setR hr _).complete hr
  | erased =>
    exact { h with files := ⟨rfl, rfl, rfl, rfl⟩, weights := nofun, starting := BlockInv.notStarting hr }

theorem BlockInv.engineStep (h : BlockInv s) (he : engineStep s = .next t) : BlockInv t := by
  rcases engineStep_cases he with ⟨-, rfl⟩ | ⟨-, -, rfl⟩ | ⟨v, i, hr, -, -, hi⟩ | ⟨v, e, -, -, -, rfl⟩
  · exact h.becomeReady
  · exact h
  · exact (exec_effect hi).keeps_blockInv h hr
  · exact h.raise _ _ _

end

/-- Settles O58, agent by agent: the engine's step, a reset, a read and a write. -/
theorem stepKeepsInvariant : Obligations.StepKeepsInvariant := by
  intro s t h hs
  rcases step_cases hs with ⟨-, he⟩ | ⟨rest, -, he⟩ | ⟨rest, -, rfl⟩ | ⟨rest, size, off, -, -, rfl⟩ |
    ⟨rest, size, off, strobes, v, -, -, rfl⟩
  · exact h.engineStep he
  · exact (h.setAgenda rest).engineStep he
  · exact BlockInv.resetBlock h.config
  · exact (h.setAgenda rest).hostRead size off
  · exact (h.setAgenda rest).hostWrite size off strobes v

/-! ## The tables -/

section
variable {cfg : Config}

/-- In a legal configuration EXP[0..254] are distinct (R29). -/
theorem expEntry_injective (h : configOk cfg = true) {i j : Nat} (hi : i ≤ 254) (hj : j ≤ 254)
    (he : expEntry cfg i = expEntry cfg j) : i = j := by
  rw [expEntry_of_lt (by omega), expEntry_of_lt (by omega)] at he
  exact genPow_injective h (by omega) (by omega) he

/-- In a legal configuration every nonzero element has a logarithm in 0..254, and EXP undoes it (R30). -/
theorem exists_logEntry (h : configOk cfg = true) {a : Byte} (ha : a ≠ 0x00#8) :
    ∃ i ≤ 254, logEntry cfg a = some i ∧ expEntry cfg i = a := by
  obtain ⟨i, hi, hl, he⟩ := logEntry_of_ne_zero h ha
  exact ⟨i, by omega, hl, by rw [expEntry_of_lt hi, he]⟩

theorem byteOf_toNat {n : Nat} (h : n < 256) : (byteOf n).toNat = n := Nat.mod_eq_of_lt h

end

/-- Settles O19, from the recurrence, the order of GEN and the logarithms. -/
theorem expTableIsPowersOfGenerator : Obligations.ExpTableIsPowersOfGenerator := by
  intro cfg
  refine ⟨rfl, rfl, fun i h1 hi => ?_, fun h => ⟨fun i hi => ?_, fun a ha => ?_, ?_⟩⟩
  · obtain ⟨j, rfl⟩ : ∃ j, i = j + 1 := Nat.exists_eq_add_of_le' h1
    rw [expEntry_of_lt (by omega), Nat.add_sub_cancel, expEntry_of_lt (by omega), genPow_succ]
  · by_cases h255 : i = 255
    · subst h255; exact (by decide : (0x01#8 : Byte) ≠ 0x00#8)
    · rw [expEntry_of_lt (by omega)]
      exact genPow_ne_zero h (by omega)
  · obtain ⟨i, hi, -, he⟩ := exists_logEntry h ha
    exact ⟨i, ⟨hi, he⟩, fun j hj => expEntry_injective h hj.1 hi (hj.2.trans he.symm)⟩
  · obtain ⟨horder, -⟩ := configOk_order h
    rw [expEntry_of_lt (by omega : 254 < 255), ← genPow_succ, horder]
    rfl

/-- Settles O17, from the logarithm that every nonzero element has. -/
theorem logIsUniqueExponent : Obligations.LogIsUniqueExponent := by
  refine ⟨fun s a h ha => ?_, fun s a ha => ⟨_, check_raises ha _ _, raisedFrom_raise _ _ _ _⟩, fun _ => rfl⟩
  obtain ⟨n, hn, hl, he⟩ := exists_logEntry h ha
  have hexec : exec (.log a) s = .next (s.setR (byteOf n)).complete := by
    rw [exec, execLog, check_passes ha, hl, succeedWith_some]
  have hr : (s.setR (byteOf n)).complete.r.toNat = n := byteOf_toNat (by omega)
  refine ⟨_, hexec, onlyResult_setR _ _, ?_, ?_, fun i hi hei => ?_⟩ <;> rw [hr]
  · exact hn
  · exact he
  · exact expEntry_injective h hi hn (hei.trans he.symm)

/-! ## What evaluation reads -/

/-- Horner's loop over n coefficients reads no entry at or above n (R24, R130). -/
theorem hornerFrom_congr {cfg : Config} {c c' : Memory} {x : Byte} {n : Nat}
    (hc : ∀ i < n, Memory.read c' i = Memory.read c i) (acc : Byte) :
    hornerFrom cfg c' x n acc = hornerFrom cfg c x n acc := by
  induction n generalizing acc with
  | zero => rfl
  | succ n ih =>
    rw [hornerFrom, hornerFrom, hc n (Nat.lt_succ_self n)]
    exact ih (fun i hi => hc i (Nat.lt_succ_of_lt hi)) _

/-- EVAL when its checks pass (R134). -/
theorem exec_eval_passes {s : State} {x : Src} (ht : 2 ≤ s.t.toNat) (hx : operandValue s x ≠ 0x00#8) :
    exec (.eval x) s = .next (s.setR (horner s.cfg s.t.toNat s.c (operandValue s x))).complete := by
  have ht : ¬ indexOf s.t < 2 := Nat.not_lt.2 ht
  rw [exec, execEval, check_passes ht, check_passes hx]
  rfl

/-- Settles O29: Horner's loop sees no difference between the two states. -/
theorem evalReadsOnlyItsCoefficients : Obligations.EvalReadsOnlyItsCoefficients := by
  intro s s' x hcfg ht hx hc h2 h0
  refine ⟨_, _, exec_eval_passes h2 h0, exec_eval_passes (ht ▸ h2) (hx ▸ h0), ?_⟩
  show horner s'.cfg s'.t.toNat s'.c (operandValue s' x) = horner s.cfg s.t.toNat s.c (operandValue s x)
  rw [hcfg, ht, hx]
  exact hornerFrom_congr hc _

/-! ## Which commands write what -/

/-- The commands that set WVALID (R28). -/
def SetsWvalid (i : Instr) : Prop := i = .lagw ∨ i = .interp

/-- The commands that clear WVALID (R28). -/
def ClearsWvalid (i : Instr) : Prop := (∃ n, i = .setk n) ∨ (∃ n v, i = .wrx n v) ∨ i = .zero

/-- The command may leave this value in WVALID where it changes it (R28). -/
def WritesWvalid (i : Instr) (v : Bool) : Prop := (v = true ∧ SetsWvalid i) ∨ (v = false ∧ ClearsWvalid i)

namespace Effect

variable {i : Instr} {s t : State}

/-- Only SETT writes T (R22). -/
theorem sett_of_t_ne (h : Effect i s t) (hne : t.t ≠ s.t) : ∃ n, i = .sett n := by
  cases h with
  | threshold n hi => exact ⟨n, hi⟩
  | _ => exact absurd rfl hne

/-- Only SETK writes K (R23). -/
theorem setk_of_k_ne (h : Effect i s t) (hne : t.k ≠ s.k) : ∃ n, i = .setk n := by
  cases h with
  | count n hi => exact ⟨n, hi⟩
  | _ => exact absurd rfl hne

theorem writer_of_c_ne (h : Effect i s t) (hne : t.c ≠ s.c) : (∃ n v, i = .wrc n v) ∨ i = .zero := by
  cases h with
  | coefficient n v hi => exact .inl ⟨n, v, hi⟩
  | erased hi => exact .inr hi
  | _ => exact absurd rfl hne

theorem writer_of_x_ne (h : Effect i s t) (hne : t.x ≠ s.x) : (∃ n v, i = .wrx n v) ∨ i = .zero := by
  cases h with
  | identifier n v hi => exact .inl ⟨n, v, hi⟩
  | erased hi => exact .inr hi
  | _ => exact absurd rfl hne

theorem writer_of_y_ne (h : Effect i s t) (hne : t.y ≠ s.y) :
    (∃ n v, i = .wry n v) ∨ i = .evalx ∨ i = .zero := by
  cases h with
  | value n v hi => exact .inl ⟨n, v, hi⟩
  | shares vs hi => exact .inr (.inl hi)
  | erased hi => exact .inr (.inr hi)
  | _ => exact absurd rfl hne

theorem writer_of_w_ne (h : Effect i s t) (hne : t.w ≠ s.w) : i = .lagw ∨ i = .interp ∨ i = .zero := by
  cases h with
  | weights ws hi => exact .inl hi
  | interpolated ws hi => exact .inr (.inl hi)
  | erased hi => exact .inr (.inr hi)
  | _ => exact absurd rfl hne

theorem writer_of_r_ne (h : Effect i s t) (hne : t.r ≠ s.r) :
    writesResult i = true ∨ i = .interp ∨ i = .zero := by
  cases h with
  | result v hi => exact .inl hi
  | interpolated ws hi => exact .inr (.inl hi)
  | erased hi => exact .inr (.inr hi)
  | _ => exact absurd rfl hne

/-- A command that changes WVALID sets it with the weights or clears it with what they depend on (R28). -/
theorem writer_of_wvalid_ne (h : Effect i s t) (hne : t.wvalid ≠ s.wvalid) : WritesWvalid i t.wvalid := by
  cases h with
  | weights ws hi => exact .inl ⟨rfl, .inl hi⟩
  | interpolated ws hi => exact .inl ⟨rfl, .inr hi⟩
  | count n hi => exact .inr ⟨rfl, .inl ⟨n, hi⟩⟩
  | identifier n v hi => exact .inr ⟨rfl, .inr (.inl ⟨n, v, hi⟩)⟩
  | erased hi => exact .inr ⟨rfl, .inr (.inr hi)⟩
  | _ => exact absurd rfl hne

end Effect

/-- Settles O45, from the writers of each register and file. -/
theorem onlyNamedCommandsWriteEachRegister : Obligations.OnlyNamedCommandsWriteEachRegister := by
  intro i s t h
  have he := exec_effect h
  refine ⟨he.sett_of_t_ne, he.setk_of_k_ne, he.writer_of_c_ne, he.writer_of_x_ne, he.writer_of_y_ne,
    he.writer_of_w_ne, fun hi => ?_⟩
  by_contra hne
  have hwriter := he.writer_of_r_ne hne
  rcases hi with rfl | ⟨_, rfl⟩ | ⟨_, _, rfl⟩ | rfl | ⟨_, rfl⟩ | ⟨_, _, rfl⟩ | ⟨_, _, rfl⟩ | rfl <;>
    simp [writesResult] at hwriter

/-! ## Registers of the window -/

/-- Each bit of CTRL: the enables, and 0 for the action bits and the reserved bits (R39). -/
theorem ctrlWord_getLsbD (s : State) {i : Nat} (hi : i < 32) :
    s.ctrlWord.getLsbD i = if i = 0 then s.ieDone else if i = 1 then s.ieErr else false := by
  simp only [State.ctrlWord, BitVec.getLsbD_append, ofBool_getLsbD]
  interval_cases i <;> rfl

/-- Each bit of STATUS (R40). -/
theorem statusWord_getLsbD (s : State) {i : Nat} (hi : i < 32) : s.statusWord.getLsbD i =
    if i = 0 then s.ready else if i = 1 then s.busy else if i = 2 then s.done
    else if i = 3 then decide (s.err.code ≠ 0x00#8) else if i = 4 then s.wvalid else false := by
  have herr : s.err.isPending = decide (s.err.code ≠ 0x00#8) := Bool.eq_iff_iff.2 (by simp [isPending_iff])
  simp only [State.statusWord, BitVec.getLsbD_append, ofBool_getLsbD, herr]
  interval_cases i <;> rfl

/-- PARAM byte by byte (R38). -/
theorem paramWord_bytes (cfg : Config) :
    (paramWord cfg).extractLsb' 0 8 = BitVec.ofNat 8 cfg.nc ∧
      (paramWord cfg).extractLsb' 8 8 = BitVec.ofNat 8 cfg.np ∧
      (paramWord cfg).extractLsb' 16 8 = cfg.gen ∧
      (paramWord cfg).extractLsb' 24 8 = cfg.poly.extractLsb' 0 8 := by
  simp (disch := omega) only [paramWord, BitVec.extractLsb'_append_eq_of_le, BitVec.extractLsb'_append_eq_of_add_le,
    BitVec.extractLsb'_eq_self, Nat.reduceSub, and_self]

/-- ERR field by field (R43). -/
theorem errWord_fields (s : State) :
    s.errWord.extractLsb' 0 8 = s.err.code ∧ s.errWord.extractLsb' 8 8 = s.err.opc ∧
      s.errWord.extractLsb' 16 8 = s.err.info ∧ s.errWord.extractLsb' 24 7 = 0#7 ∧
      s.errWord.getLsbD 31 = s.err.multi := by
  simp (disch := omega) only [State.errWord, BitVec.extractLsb'_append_eq_of_le,
    BitVec.extractLsb'_append_eq_of_add_le, BitVec.extractLsb'_eq_self, Nat.reduceSub, BitVec.getLsbD_append,
    ofBool_getLsbD, true_and]
  rfl

/-- CFG field by field (R44). -/
theorem cfgWord_fields (s : State) :
    s.cfgWord.extractLsb' 0 8 = s.t ∧ s.cfgWord.extractLsb' 8 8 = s.k ∧ s.cfgWord.extractLsb' 16 16 = 0#16 := by
  simp (disch := omega) only [State.cfgWord, BitVec.extractLsb'_append_eq_of_le,
    BitVec.extractLsb'_append_eq_of_add_le, BitVec.extractLsb'_eq_self, Nat.reduceSub, and_self]

/-- RESULT is R, zero-extended (R42). -/
theorem resultWord_toNat (s : State) : s.resultWord.toNat = s.r.toNat := by
  rw [State.resultWord, BitVec.toNat_append]
  simp

section
variable (s : State)

/-! Each register by its offset (R36). -/

theorem readAt_id : s.readAt .word 0x00 = 0x47463801#32 := readAt_word rfl
theorem readAt_param : s.readAt .word 0x04 = paramWord s.cfg := readAt_word rfl
theorem readAt_ctrl : s.readAt .word 0x08 = s.ctrlWord := readAt_word rfl
theorem readAt_status : s.readAt .word 0x0C = s.statusWord := readAt_word rfl
theorem readAt_cmd : s.readAt .word 0x10 = 0#32 := readAt_word rfl
theorem readAt_result : s.readAt .word 0x14 = s.resultWord := readAt_word rfl
theorem readAt_err : s.readAt .word 0x18 = s.errWord := readAt_word rfl
theorem readAt_cfg : s.readAt .word 0x1C = s.cfgWord := readAt_word rfl

/-- From 0x20 on every word offset is reserved (R45). -/
theorem readAt_reserved {off : Nat} (h : 0x20 ≤ off) (h4 : off % 4 = 0) : s.readAt .word off = 0#32 := by
  obtain ⟨n, rfl⟩ : ∃ n, off = n + 0x20 := Nat.exists_eq_add_of_le' h
  exact readAt_word h4

end

/-- Settles O48, register by register. -/
theorem registersReadTheirFields : Obligations.RegistersReadTheirFields := by
  refine ⟨fun s off rest ho _ ha => step_read ho ha, fun s => ?_⟩
  obtain ⟨hnc, hnp, hgen, hpoly⟩ := paramWord_bytes s.cfg
  rw [readAt_param, readAt_ctrl, readAt_status, readAt_result, readAt_err, readAt_cfg]
  refine ⟨readAt_id s, ⟨fun h => ?_, fun h => ?_, hgen, hpoly⟩, fun i hi => ctrlWord_getLsbD s hi,
    fun i hi => statusWord_getLsbD s hi, readAt_cmd s, resultWord_toNat s, errWord_fields s, cfgWord_fields s,
    fun off h _ h4 => readAt_reserved s h h4, rfl, by decide⟩
  · rw [hnc]; exact Nat.mod_eq_of_lt h
  · rw [hnp]; exact Nat.mod_eq_of_lt h

/-- Settles O51, from what a CTRL write leaves with SRST and without. -/
theorem ctrlWriteEffects : Obligations.CtrlWriteEffects := by
  intro s v rest ha
  refine ⟨fun hv => ?_, fun hv => ?_, fun i hi => by rw [readAt_ctrl, ctrlWord_getLsbD s hi]⟩
  · rw [step_ctrlWrite ha, writeCtrl_of_not_srst hv]
    rfl
  · refine ⟨(s.setAgenda rest).resetBlock, ?_, step_reset rfl, rfl, rfl⟩
    rw [step_ctrlWrite ha, writeCtrl_of_srst hv]

/-! ## WVALID -/

section
variable {s t : State} {i : Instr}

/-- What LAGW and INTERP leave when they do not raise: WVALID set, and the weights of the points in W (R28). -/
theorem Effect.weights_stored (h : Effect i s t) (hok : t.err.code = 0x00#8) (hi : SetsWvalid i) :
    t.wvalid = true ∧ lagWeights t.cfg t.k.toNat t.x = some (Memory.take t.w t.k.toNat) := by
  cases h with
  | raised => exact absurd hok (record_code_ne_zero _ _ _ _)
  | weights ws _ _ _ hw => exact ⟨rfl, lagWeights_storeWeights hw⟩
  | interpolated ws _ _ _ hw => exact ⟨rfl, lagWeights_storeWeights hw⟩
  | result v hr => rcases hi with rfl | rfl <;> cases hr
  | _ => rcases hi with rfl | rfl <;> contradiction

/-- SETK and WRX leave WVALID clear when they do not raise, and so does ZERO (R28). -/
theorem Effect.wvalid_cleared (h : Effect i s t) (hok : t.err.code = 0x00#8)
    (hi : ClearsWvalid i) : t.wvalid = false := by
  cases h with
  | raised => exact absurd hok (record_code_ne_zero _ _ _ _)
  | count | identifier | erased => rfl
  | result v hr => rcases hi with ⟨_, rfl⟩ | ⟨_, _, rfl⟩ | rfl <;> cases hr
  | _ => rcases hi with ⟨_, rfl⟩ | ⟨_, _, rfl⟩ | rfl <;> contradiction

/-- The engine changes WVALID only by a pending command that sets or clears it. -/
theorem engineStep_wvalid_ne (h : engineStep s = .next t) (hne : t.wvalid ≠ s.wvalid) :
    ∃ w i, s.pending = some w ∧ decodeWord w = .ok i ∧ WritesWvalid i t.wvalid := by
  rcases engineStep_cases h with ⟨-, rfl⟩ | ⟨-, -, rfl⟩ | ⟨w, i, -, hp, hd, he⟩ | ⟨w, e, -, -, -, rfl⟩
  · exact absurd rfl hne
  · exact absurd rfl hne
  · exact ⟨w, i, hp, hd, (exec_effect he).writer_of_wvalid_ne hne⟩
  · exact absurd rfl hne

theorem offerCommand_wvalid (s : State) (v : Word) : (s.offerCommand v).wvalid = s.wvalid := by
  rcases offerCommand_cases s v with ⟨-, h⟩ | ⟨-, h⟩ | ⟨-, h⟩ <;> rw [h] <;> rfl

/-- A host write changes WVALID only as a CTRL write with SRST, which clears it. -/
theorem hostWrite_wvalid_ne {size : Size} {off : Nat} {strobes : BitVec 4} {v : Word}
    (hne : (s.hostWrite size off strobes v).wvalid ≠ s.wvalid) :
    (size = .word ∧ strobes = 0xF#4 ∧ off = 0x08) ∧ v.getLsbD 16 = true ∧
      (s.hostWrite size off strobes v).wvalid = false := by
  rcases hostWrite_cases s size off strobes v with h | ⟨hctrl, h⟩ | ⟨-, h⟩ <;> rw [h] at hne ⊢
  · exact absurd rfl hne
  · cases hv : v.getLsbD 16
    · rw [writeCtrl_of_not_srst hv] at hne
      exact absurd rfl hne
    · rw [writeCtrl_of_srst hv]
      exact ⟨hctrl, rfl, rfl⟩
  · exact absurd (offerCommand_wvalid s v) hne

end

/-- Settles O46: what the commands leave of WVALID, and which turns change it. -/
theorem wvalidSettersAndClearers : Obligations.WvalidSettersAndClearers := by
  refine ⟨fun i s t h hc h0 => ?_, fun s t h hne => ?_, fun s hw => ?_, rfl, fun s => ?_⟩
  · obtain ⟨-, -, herr, -⟩ := hc
    have hok : t.err.code = 0x00#8 := by rw [herr, h0]
    exact ⟨(exec_effect h).weights_stored hok, (exec_effect h).wvalid_cleared hok⟩
  · rcases step_cases h with ⟨-, he⟩ | ⟨rest, -, he⟩ | ⟨rest, ha, rfl⟩ | ⟨rest, size, off, -, -, rfl⟩ |
      ⟨rest, size, off, strobes, v, ha, -, rfl⟩
    · exact .inl (engineStep_wvalid_ne he hne)
    · exact .inl (engineStep_wvalid_ne (s := s.setAgenda rest) he hne)
    · exact .inr ⟨rfl, .inl ⟨rest, ha⟩⟩
    · exact absurd rfl hne
    · obtain ⟨⟨rfl, rfl, rfl⟩, hv, hclear⟩ := hostWrite_wvalid_ne hne
      exact .inr ⟨hclear, .inr ⟨v, rest, ha, hv⟩⟩
  · exact ⟨_, check_raises hw _ _, raisedFrom_raise _ _ _ _⟩
  · rw [readAt_status, statusWord_getLsbD s (by decide)]
    rfl

end Sys2Proof.Machine

/-! # Memory (20_memory.md)

SUPPORT. The proofs for the host's accesses to the register window: which of them change nothing, what reads of each size
answer, what no access changes, and that the block has no access outside the window. -/

namespace Sys2Proof.Machine

/-! ## Reads -/

/-- Settles O47: a read is one step, and adds its answer. -/
theorem hostReadsHaveNoSideEffect : Obligations.HostReadsHaveNoSideEffect :=
  fun _ _ _ _ ho ha => step_read ho ha

/-- An access is aligned when its offset is a multiple of its size (R54). -/
theorem aligned_iff {size : Size} {off : Nat} : aligned size off = true ↔ off % size.bytes = 0 := beq_iff_eq

/-- The bits of an answer: those of the access's bytes, then zeros. -/
theorem lowBytes_getLsbD (size : Size) (v : Word) {i : Nat} (hi : i < 32) :
    (lowBytes size v).getLsbD i = (decide (i < 8 * size.bytes) && v.getLsbD i) := by
  cases size with
  | byte | half =>
    rw [lowBytes, BitVec.getLsbD_setWidth, BitVec.getLsbD_extractLsb', decide_eq_true hi, Bool.true_and, Nat.zero_add]
    rfl
  | word => rw [lowBytes, Size.bytes, decide_eq_true hi, Bool.true_and]

section
variable (s : State) {size : Size} {off : Nat}

/-- A misaligned read answers 0 (R54). -/
theorem readAt_misaligned (h : off % size.bytes ≠ 0) : s.readAt size off = 0#32 :=
  if_neg (mt aligned_iff.1 h)

/-- An aligned read answers its byte lanes of the word they are in (R53, R55). -/
theorem readAt_getLsbD (h : off % size.bytes = 0) {i : Nat} (hi : i < 32) :
    (s.readAt size off).getLsbD i = (decide (i < 8 * size.bytes) &&
      (s.readAt .word (off - off % 4)).getLsbD (8 * (off % 4) + i)) := by
  have hword : (off - off % 4) % 4 = 0 := by omega
  rw [readAt_word hword, State.readAt, if_pos (aligned_iff.2 h), lowBytes_getLsbD _ _ hi, BitVec.getLsbD_ushiftRight]

end

/-! ## Writes -/

section
variable {s : State} {size : Size} {off : Nat} {strobes : BitVec 4} {v : Word}

/-- Only a full aligned word write to CTRL or CMD takes effect (R52 to R54). -/
theorem hostWrite_ineffective (h : size ≠ .word ∨ strobes ≠ 0xF#4 ∨ (off ≠ 0x08 ∧ off ≠ 0x10)) :
    s.hostWrite size off strobes v = s := by
  rcases hostWrite_cases s size off strobes v with hsame | ⟨⟨rfl, rfl, rfl⟩, -⟩ | ⟨⟨rfl, rfl, rfl⟩, -⟩
  · exact hsame
  · simp at h
  · simp at h

end

/-- Settles O49, from the writes that take effect and the bits of an aligned read. -/
theorem subwordAndMisalignedAccesses : Obligations.SubwordAndMisalignedAccesses := by
  refine ⟨fun s size off strobes v rest ho ha hsub => ?_, fun s off _ => ⟨fun i hi => ?_, fun h2 i hi => ?_,
    fun h2 => ?_, fun h4 => ?_⟩⟩
  · rw [step_write ho ha, hostWrite_ineffective hsub]
    rfl
  · exact readAt_getLsbD s (size := .byte) (Nat.mod_one off) hi
  · exact readAt_getLsbD s (size := .half) h2 hi
  · exact readAt_misaligned s (size := .half) (by rw [Size.bytes, h2]; exact Nat.one_ne_zero)
  · exact readAt_misaligned s (size := .word) h4

/-! ## What no access changes -/

/-- R, T, K, the files, WVALID and READY are as they were, and a command that was accepted still is. -/
def LeavesDataAndCommand (s t : State) : Prop :=
  t.r = s.r ∧ SameCounts s t ∧ SameFiles s t ∧ t.ready = s.ready ∧ ∀ w, s.pending = some w → t.pending = some w

section
variable (s : State)

/-- Stated of one state; an update that touches none of these fields has it by definition. -/
theorem leavesDataAndCommand_refl : LeavesDataAndCommand s s :=
  ⟨rfl, ⟨rfl, rfl⟩, ⟨rfl, rfl, rfl, rfl, rfl⟩, rfl, fun _ h => h⟩

/-- A new error record changes neither data nor an accepted command. -/
theorem setErr_leavesDataAndCommand (e : ErrorRecord) : LeavesDataAndCommand s (s.setErr e) :=
  leavesDataAndCommand_refl s

/-- A CTRL write without SRST reaches the enables, the error record and DONE only (R39). -/
theorem writeCtrl_leavesDataAndCommand {v : Word} (hv : v.getLsbD 16 = false) :
    LeavesDataAndCommand s (s.writeCtrl v) := by
  rw [writeCtrl_of_not_srst hv]
  exact leavesDataAndCommand_refl s

/-- A CMD write is accepted only with BUSY = 0, when there is no accepted command to lose (R203). -/
theorem offerCommand_leavesDataAndCommand (v : Word) : LeavesDataAndCommand s (s.offerCommand v) := by
  rcases offerCommand_cases s v with ⟨-, he⟩ | ⟨-, he⟩ | ⟨⟨-, hbusy, -⟩, he⟩ <;> rw [he]
  · exact setErr_leavesDataAndCommand s _
  · exact setErr_leavesDataAndCommand s _
  · refine ⟨rfl, ⟨rfl, rfl⟩, ⟨rfl, rfl, rfl, rfl, rfl⟩, rfl, fun w hw => ?_⟩
    simp [State.busy, hw] at hbusy

end

/-- Settles O53: a read adds an answer, and a write is ineffective, a CTRL write without SRST or a CMD write. -/
theorem hostAccessesLeaveDataAndAcceptedCommand : Obligations.HostAccessesLeaveDataAndAcceptedCommand := by
  intro s t access rest ha hs hsrst
  change LeavesDataAndCommand s t
  rcases step_cases hs with ⟨h, -⟩ | ⟨_, h, -⟩ | ⟨_, h, -⟩ | ⟨_, _, _, -, -, rfl⟩ |
    ⟨rest, size, off, strobes, v, h, -, rfl⟩
  · simp [ha] at h
  · simp [ha] at h
  · simp [ha] at h
  · exact leavesDataAndCommand_refl s
  · obtain ⟨haccess, -⟩ := List.cons.inj (ha.symm.trans h)
    rcases hostWrite_cases (s.setAgenda rest) size off strobes v with he | ⟨⟨rfl, rfl, rfl⟩, he⟩ | ⟨-, he⟩ <;> rw [he]
    · exact leavesDataAndCommand_refl s
    · exact writeCtrl_leavesDataAndCommand (s.setAgenda rest) (hsrst v haccess)
    · exact offerCommand_leavesDataAndCommand (s.setAgenda rest) v

/-! ## Outside the window -/

/-- A host's turn whose address is not in the window is refused by that name (R51). -/
theorem step_host_outside {s : State} {access : Access} {rest : List Turn} (ha : s.agenda = .host access :: rest)
    (hw : access.addr < Config.base ∨ Config.base + 64 ≤ access.addr) : step s = .refused .outsideWindow := by
  have hnone : windowOffset access.addr = none := windowOffset_eq_none.2 hw
  rw [step, takeTurn, ha]
  cases access with
  | read size addr => simp [hostAccess, show windowOffset addr = none from hnone]
  | write size addr strobes v => simp [hostAccess, show windowOffset addr = none from hnone]

/-- Settles O50: a read and a write outside the window are both such turns. -/
theorem accessesOutsideTheWindowAreRefused : Obligations.AccessesOutsideTheWindowAreRefused := by
  intro s addr size strobes v rest haddr ha
  rcases ha with hread | hwrite
  · exact step_host_outside hread haddr
  · exact step_host_outside hwrite haddr

end Sys2Proof.Machine

/-! # Encoding (30_encoding.md)

SUPPORT. The proofs for the decoder and the encoder: a command decodes from its own word, the words that the decoder
rejects, what a legal word encodes again to, the values of operands, and what the pseudo-instructions mean. -/

namespace Sys2Proof

open Machine

/-! ## Operands -/

@[simp] theorem operand_select (select : Bool) (field : Byte) : (operand select field).select = select := by
  cases select <;> rfl

@[simp] theorem operand_field (select : Bool) (field : Byte) :
    (operand select field).field = if select then 0x00#8 else field := by
  cases select <;> rfl

/-- An operand is read back from the select bit and the field it puts in the word (R73). -/
@[simp] theorem operand_select_field (x : Src) : operand x.select x.field = x := by
  cases x <;> rfl

@[simp] theorem operandValue_operand (s : State) (select : Bool) (field : Byte) :
    operandValue s (operand select field) = if select then s.r else field := by
  cases select <;> rfl

/-! ## Decoding what was encoded

A command's fields decode by the shape of its opcode's row (R74). -/

section
variable {opc : Byte}

theorem decodeFields_fieldsNone {i : Instr} (h : formOf opc = some (.none i)) :
    decodeFields (fieldsNone opc) = .ok i := by
  simp [decodeFields, fieldsNone, h, decodeForm, checkNoA, checkNoB]

theorem decodeFields_fieldsAB {mk : Src → Src → Instr} (h : formOf opc = some (.ab mk)) (a b : Src) :
    decodeFields (fieldsAB opc a b) = .ok (mk a b) := by
  simp [decodeFields, fieldsAB, h, decodeForm]

theorem decodeFields_fieldsA {mk : Src → Instr} (h : formOf opc = some (.a mk)) (a : Src) :
    decodeFields (fieldsA opc a) = .ok (mk a) := by
  simp [decodeFields, fieldsA, h, decodeForm, checkNoB]

theorem decodeFields_fieldsN {mk : Byte → Instr} (h : formOf opc = some (.n mk)) (n : Byte) :
    decodeFields (fieldsN opc n) = .ok (mk n) := by
  simp [decodeFields, fieldsN, h, decodeForm, checkNoB]

theorem decodeFields_fieldsIV {mk : Byte → Src → Instr} (h : formOf opc = some (.iv mk)) (n : Byte) (v : Src) :
    decodeFields (fieldsIV opc n v) = .ok (mk n v) := by
  simp [decodeFields, fieldsIV, h, decodeForm]

end

/-- Every command decodes from its own fields: its row of the opcode map has its constructor (R75). -/
theorem decodeFields_fields (i : Instr) : decodeFields i.fields = .ok i := by
  cases i with
  | nop | evalx | lagw | lcomb | interp | zero => exact decodeFields_fieldsNone rfl
  | add a b | mul a b | div a b | pow a b => exact decodeFields_fieldsAB rfl a b
  | inv a | log a | exp a | eval a => exact decodeFields_fieldsA rfl a
  | sett n | rdc n | setk n | rdx n | rdy n | rdw n => exact decodeFields_fieldsN rfl n
  | wrc n v | wrx n v | wry n v => exact decodeFields_fieldsIV rfl n v

theorem decodeWord_encode (i : Instr) : decodeWord (encode i) = .ok i := by
  rw [encode, decodeWord_toWord, decodeFields_fields]

/-- Settles O1: the bytes of a word decode as the word, and a command decodes from its own word. -/
theorem everyCommandDecodesFromItsBytes : Obligations.EveryCommandDecodesFromItsBytes := by
  intro i rest
  rw [encodeBytes, decode_bytesOfWord, decodeWord_encode]

/-- Settles O5: nine of the words are the encodings of their commands, and the last has an unused field B. -/
theorem writtenWordsDecode : Obligations.WrittenWordsDecode :=
  ⟨decodeWord_encode .nop, decodeWord_encode (.mul .r (.imm 0x83#8)), decodeWord_encode (.mul (.imm 0x05#8) .r),
    decodeWord_encode (.inv (.imm 0x53#8)), decodeWord_encode (.wrc 0x00#8 .r), decodeWord_encode (.eval .r),
    decodeWord_encode (.setk 0x05#8), decodeWord_encode .interp, decodeWord_encode .zero, rfl⟩

/-! ## The checks of R76 -/

section
variable {f : Fields} {k : Except DecodeError Instr}

theorem checkNoA_eq : checkNoA f k = if f.a ≠ 0x00#8 then .error .unusedA else k := (ite_not _ _ _).symm

theorem checkNoB_eq : checkNoB f k = if f.b ≠ 0x00#8 then .error .unusedB else k := (ite_not _ _ _).symm

/-- A check has passed when the answer is a command. -/
theorem check_eq_ok {c : Prop} [Decidable c] {e : DecodeError} {i : Instr} :
    (if c then .error e else k) = .ok i ↔ ¬ c ∧ k = .ok i := by
  by_cases h : c <;> simp [h]

end

/-! ## Illegal words -/

/-- Why the decoder's answer is a rejection, none for a command. -/
def rejection : Except DecodeError Instr → Option DecodeError
  | .ok _ => none
  | .error e => some e

@[simp] theorem rejection_ok (i : Instr) : rejection (.ok i) = none := rfl

@[simp] theorem rejection_error (e : DecodeError) : rejection (.error e) = some e := rfl

/-- A check that rejects comes first. -/
@[simp] theorem rejection_check {c : Prop} [Decidable c] (e : DecodeError) (k : Except DecodeError Instr) :
    rejection (if c then .error e else k) = if c then some e else rejection k := apply_ite _ _ _ _

@[simp] theorem rejection_checkNoA (f : Fields) (k : Except DecodeError Instr) :
    rejection (checkNoA f k) = if f.a ≠ 0x00#8 then some .unusedA else rejection k := by
  rw [checkNoA_eq, rejection_check]

@[simp] theorem rejection_checkNoB (f : Fields) (k : Except DecodeError Instr) :
    rejection (checkNoB f k) = if f.b ≠ 0x00#8 then some .unusedB else rejection k := by
  rw [checkNoB_eq, rejection_check]

theorem eq_error_of_rejection {r : Except DecodeError Instr} {e : DecodeError} (h : rejection r = some e) :
    r = .error e := by
  cases r with
  | ok i => cases h
  | error e' => rw [Option.some.inj h]

/-- The shape of a row of the opcode map (R74). -/
def Form.shape : Form → Shape
  | .none _ => .none
  | .ab _ => .ab
  | .a _ => .a
  | .n _ => .n
  | .iv _ => .iv

/-- The opcode map gives each opcode the shape that R74 lists it under. -/
theorem shapeOf_eq (opc : Byte) : shapeOf opc = (formOf opc).map Form.shape := by
  revert opc
  decide

/-- With RSV = 0 the illegal words of a shape are those of the conditions 3 to 6 of R76. -/
theorem firstIllegal_of_shape {f : Fields} {sh : Shape} (hshape : shapeOf f.opc = some sh) (hrsv : f.rsv = 0#6) :
    firstIllegal f =
      if f.sa = true ∧ sh.allowsSA = false then some .saNotAllowed
      else if f.sb = true ∧ sh.allowsSB = false then some .sbNotAllowed
      else if sh.usesA = false ∧ f.sa = false ∧ f.a ≠ 0x00#8 then some .unusedA
      else if sh.usesB = false ∧ f.sb = false ∧ f.b ≠ 0x00#8 then some .unusedB
      else none := by
  simp [firstIllegal, Fields.opcodeOk, Fields.rsvOk, Fields.saOk, Fields.sbOk, Fields.unusedAOk, Fields.unusedBOk,
    hshape, hrsv, and_assoc]

/-- The checks of a row reject as the conditions on its shape do. A shape that does not use a field does not let R
replace it either, so that past the checks of SA and SB the unused fields are those that the word gives. -/
theorem rejection_decodeForm {f : Fields} {form : Form} (hshape : shapeOf f.opc = some form.shape)
    (hrsv : f.rsv = 0#6) : rejection (decodeForm form f) = firstIllegal f := by
  rw [firstIllegal_of_shape hshape hrsv]
  cases form with
  | ab mk | iv mk => simp [decodeForm, Form.shape, Shape.allowsSA, Shape.allowsSB, Shape.usesA, Shape.usesB]
  | a mk | n mk =>
    cases hsb : f.sb <;>
      simp [decodeForm, hsb, Form.shape, Shape.allowsSA, Shape.allowsSB, Shape.usesA, Shape.usesB]
  | none i =>
    cases hsa : f.sa <;> cases hsb : f.sb <;>
      simp [decodeForm, hsa, hsb, Form.shape, Shape.allowsSA, Shape.allowsSB, Shape.usesA, Shape.usesB]

/-- The decoder rejects with the first condition of R76 that holds. -/
theorem rejection_decodeFields (f : Fields) : rejection (decodeFields f) = firstIllegal f := by
  have hshape := shapeOf_eq f.opc
  unfold decodeFields
  cases hform : formOf f.opc with
  | none =>
    rw [hform] at hshape
    simp [firstIllegal, Fields.opcodeOk, hshape]
  | some form =>
    rw [hform] at hshape
    by_cases hrsv : f.rsv = 0#6
    · simpa [hrsv] using rejection_decodeForm hshape hrsv
    · simp [firstIllegal, Fields.opcodeOk, hshape, Fields.rsvOk, hrsv]

/-- 233 of the 256 opcode values are undefined (R71, R76 case 1). -/
theorem undefined_opcodes :
    ((List.range 256).filter (fun n => (shapeOf (BitVec.ofNat 8 n)).isNone)).length = 233 := by decide +kernel

/-- Settles O2, from the decoder's rejection and the engine's completion of a word that does not decode. -/
theorem illegalWordsAreRule76 : Obligations.IllegalWordsAreRule76 := by
  refine ⟨fun w => rejection_decodeFields (Fields.ofWord w), undefined_opcodes, fun s w rest hr hp ha hne => ?_⟩
  obtain ⟨e, he⟩ := Option.ne_none_iff_exists'.1 hne
  have hdecode : decodeWord w = .error e := eq_error_of_rejection ((rejection_decodeFields _).trans he)
  exact ⟨_, (step_engine ha).trans (engineStep_illegal (s := s.setAgenda rest) hr hp hdecode),
    raisedFrom_raise _ _ _ _⟩

/-! ## Encoding what was decoded -/

/-- The fields with 0 in those that R replaces (R73). -/
def Fields.canonical (f : Fields) : Fields :=
  { f with a := if f.sa then 0x00#8 else f.a, b := if f.sb then 0x00#8 else f.b }

/-- The commands of a row have the row's opcode and the fields of its shape (R74, R75). -/
def Form.Encodes (opc : Byte) : Form → Prop
  | .none i => i.fields = fieldsNone opc
  | .ab mk => ∀ a b, (mk a b).fields = fieldsAB opc a b
  | .a mk => ∀ a, (mk a).fields = fieldsA opc a
  | .n mk => ∀ n, (mk n).fields = fieldsN opc n
  | .iv mk => ∀ n v, (mk n v).fields = fieldsIV opc n v

theorem opcodeMap_encodes : ∀ row ∈ opcodeMap, row.2.Encodes row.1 := by
  simp [opcodeMap, arithmeticRows, evaluatorRows, interpolatorRows, housekeepingRows, Form.Encodes, Instr.fields]

theorem formOf_encodes {opc : Byte} {form : Form} (h : formOf opc = some form) : form.Encodes opc := by
  obtain ⟨row, hfind, rfl⟩ := Option.map_eq_some_iff.1 h
  obtain rfl : row.1 = opc := by simpa using List.find?_some hfind
  exact opcodeMap_encodes row (List.mem_of_find?_eq_some hfind)

section
variable {f : Fields} {i : Instr}

/-- Legal fields are of a defined opcode, have RSV = 0 and pass the checks of the opcode's shape. -/
theorem decodeFields_eq_ok : decodeFields f = .ok i ↔
    ∃ form, formOf f.opc = some form ∧ f.rsv = 0#6 ∧ decodeForm form f = .ok i := by
  unfold decodeFields
  cases formOf f.opc with
  | none => simp
  | some form => by_cases hrsv : f.rsv = 0#6 <;> simp [hrsv]

/-- The fields that pass the checks of a shape are those of the command, but for what R replaces. -/
theorem fields_of_decodeForm {form : Form} (hform : form.Encodes f.opc) (hrsv : f.rsv = 0#6)
    (h : decodeForm form f = .ok i) : i.fields = f.canonical := by
  cases form with
  | none i' =>
    simp only [decodeForm, checkNoA_eq, checkNoB_eq, check_eq_ok, ne_eq, not_not, Except.ok.injEq] at h
    obtain ⟨hsa, hsb, ha, hb, rfl⟩ := h
    rw [show i'.fields = fieldsNone f.opc from hform]
    simp [fieldsNone, Fields.canonical, hrsv, hsa, hsb, ha, hb]
  | ab mk =>
    obtain rfl : mk _ _ = i := Except.ok.inj h
    rw [hform]
    simp [fieldsAB, Fields.canonical, hrsv]
  | a mk =>
    simp only [decodeForm, checkNoB_eq, check_eq_ok, ne_eq, not_not, Except.ok.injEq] at h
    obtain ⟨hsb, hb, rfl⟩ := h
    rw [hform]
    simp [fieldsA, Fields.canonical, hrsv, hsb, hb]
  | n mk =>
    simp only [decodeForm, checkNoB_eq, check_eq_ok, ne_eq, not_not, Except.ok.injEq] at h
    obtain ⟨hsa, hsb, hb, rfl⟩ := h
    rw [hform]
    simp [fieldsN, Fields.canonical, hrsv, hsa, hsb, hb]
  | iv mk =>
    simp only [decodeForm, check_eq_ok, Except.ok.injEq] at h
    obtain ⟨hsa, rfl⟩ := h
    rw [hform]
    simp [fieldsIV, Fields.canonical, hrsv, hsa]

/-- Legal fields are those of the command they decode to, but for what R replaces. -/
theorem fields_of_decodeFields (h : decodeFields f = .ok i) : i.fields = f.canonical := by
  obtain ⟨form, hform, hrsv, hdecode⟩ := decodeFields_eq_ok.1 h
  exact fields_of_decodeForm (formOf_encodes hform) hrsv hdecode

end

/-- Settles O3: the command's fields are the word's own, but for what R replaces. -/
theorem legalWordsReencodeCanonically : Obligations.LegalWordsReencodeCanonically := by
  intro f i h
  rw [decodeWord_toWord] at h
  rw [encode, fields_of_decodeFields h]
  rfl

/-! ## Operands of a legal word -/

section
variable {f : Fields} {i : Instr} {a b v : Src} {n opc : Byte}

/-- An operand is R or its field, as the select bit says, when those are its select bit and its field. -/
theorem eq_operand {x : Src} {select : Bool} {field : Byte} (hs : x.select = select)
    (hf : x.field = if select then 0x00#8 else field) : x = operand select field := by
  subst hs
  cases x with
  | imm u => exact congrArg Src.imm hf
  | r => rfl

/-- Both operands of shape `ab` (R73, R74). -/
theorem operands_of_fieldsAB (h : fieldsAB opc a b = f.canonical) :
    a = operand f.sa f.a ∧ b = operand f.sb f.b := by
  obtain ⟨-, -, hsb, hsa, ha, hb⟩ := Fields.mk.inj h
  exact ⟨eq_operand hsa ha, eq_operand hsb hb⟩

theorem operand_of_fieldsA (h : fieldsA opc a = f.canonical) : a = operand f.sa f.a := by
  obtain ⟨-, -, -, hsa, ha, -⟩ := Fields.mk.inj h
  exact eq_operand hsa ha

/-- A count or an index is never replaced: its shape has SA = 0 (R74). -/
theorem count_of_fieldsN (h : fieldsN opc n = f.canonical) : n = f.a := by
  obtain ⟨-, -, -, hsa, ha, -⟩ := Fields.mk.inj h
  rwa [← hsa] at ha

theorem operands_of_fieldsIV (h : fieldsIV opc n v = f.canonical) : n = f.a ∧ v = operand f.sb f.b := by
  obtain ⟨-, -, hsb, hsa, ha, hb⟩ := Fields.mk.inj h
  rw [← hsa] at ha
  exact ⟨ha, eq_operand hsb hb⟩

end

/-- A field A that R replaces is not read (R73). -/
theorem decodeFields_replacedA {f : Fields} (hsa : f.sa = true) (v : Byte) :
    decodeFields { f with a := v } = decodeFields f := by
  unfold decodeFields
  cases formOf f.opc with
  | none => rfl
  | some form => cases form <;> simp [decodeForm, operand, checkNoB, hsa]

/-- A field B that R replaces is not read (R73). -/
theorem decodeFields_replacedB {f : Fields} (hsb : f.sb = true) (v : Byte) :
    decodeFields { f with b := v } = decodeFields f := by
  unfold decodeFields
  cases formOf f.opc with
  | none => rfl
  | some form => cases form <;> simp [decodeForm, operand, hsb]

/-- Settles O4, from the fields of the command that a legal word decodes to. -/
theorem operandsFollowSelectBits : Obligations.OperandsFollowSelectBits := by
  refine ⟨fun s w a b h => ?_, fun s w a h => ?_, fun w n h => ?_, fun s w n v h => ?_, fun f v =>
    ⟨fun hsa => ?_, fun hsb => ?_⟩⟩
  · obtain ⟨rfl, rfl⟩ : a = operand _ _ ∧ b = operand _ _ := by
      rcases h with h | h | h | h <;> exact operands_of_fieldsAB (fields_of_decodeFields h)
    exact ⟨operandValue_operand _ _ _, operandValue_operand _ _ _⟩
  · obtain rfl : a = operand _ _ := by
      rcases h with h | h | h | h <;> exact operand_of_fieldsA (fields_of_decodeFields h)
    exact operandValue_operand _ _ _
  · rcases h with h | h | h | h | h | h <;> exact count_of_fieldsN (fields_of_decodeFields h)
  · obtain ⟨rfl, rfl⟩ : n = _ ∧ v = operand _ _ := by
      rcases h with h | h | h <;> exact operands_of_fieldsIV (fields_of_decodeFields h)
    exact ⟨rfl, operandValue_operand _ _ _⟩
  · rw [decodeWord_toWord, decodeWord_toWord, decodeFields_replacedA hsa]
  · rw [decodeWord_toWord, decodeWord_toWord, decodeFields_replacedB hsb]

/-! ## Pseudo-instructions -/

namespace Machine

/-- ADD has no check (R108). -/
theorem exec_add (a b : Src) (s : State) :
    exec (.add a b) s = .next (s.setR (gfAdd (operandValue s a) (operandValue s b))).complete := rfl

/-- MUL has no check (R109). -/
theorem exec_mul (a b : Src) (s : State) :
    exec (.mul a b) s = .next (s.setR (gfMul s.cfg (operandValue s a) (operandValue s b))).complete := rfl

/-- WRC when its check passes (R132). -/
theorem exec_wrc_passes {s : State} {n : Byte} (hn : n.toNat < s.cfg.nc) (v : Src) :
    exec (.wrc n v) s = .next (s.setC (Memory.write s.c n.toNat (operandValue s v))).complete :=
  check_passes (Nat.not_le.2 hn) _ _

/-- Adding an element a second time takes it away again (R100). -/
theorem gfAdd_gfAdd_cancel (a b : Byte) : gfAdd (gfAdd a b) b = a := by
  rw [gfAdd, gfAdd, BitVec.xor_assoc, BitVec.xor_self, BitVec.xor_zero]

/-- Settles O6: each pseudo-instruction is an ADD, a MUL or a WRC. -/
theorem pseudoInstructionsMean : Obligations.PseudoInstructionsMean := by
  intro s a b v
  refine ⟨⟨_, exec_add _ _ _, onlyResult_setR _ _, BitVec.xor_zero⟩,
    ⟨_, exec_add _ _ _, onlyResult_setR _ _, gfAdd_gfAdd_cancel _ _⟩,
    ⟨_, exec_mul _ _ _, onlyResult_setR _ _, rfl⟩,
    ⟨_, exec_add _ _ _, onlyResult_setR _ _, BitVec.xor_self⟩,
    fun hv => ⟨_, exec_wrc_passes hv _, Memory.read_write_same _ _ _⟩⟩

end Machine

end Sys2Proof

/-! # Field arithmetic (40_field_arithmetic.md)

SUPPORT. The proofs for the field functions and the commands of the arithmetic unit: the two loops of R101 give the
product and the remainder of polynomials, quotients and inverses are what multiplies back, the table form is the
product. -/

namespace Sys2Proof.Machine

open Polynomial (X)

/-! ## NOP -/

/-- Legal fields of NOP's opcode are NOP (R75, R107). -/
theorem eq_nop_of_decodeFields {f : Fields} {i : Instr} (hopc : f.opc = Opcode.nop) (h : decodeFields f = .ok i) :
    i = .nop := by
  obtain ⟨form, hform, -, hdecode⟩ := decodeFields_eq_ok.1 h
  rw [hopc] at hform
  obtain rfl : Form.none .nop = form := Option.some.inj hform
  simp only [decodeForm, checkNoA_eq, checkNoB_eq, check_eq_ok, Except.ok.injEq] at hdecode
  obtain ⟨-, -, -, -, rfl⟩ := hdecode
  rfl

/-- R replaces no field of NOP, so its only legal fields are all 0 (R107). -/
theorem fields_of_decodeFields_nop {f : Fields} (h : decodeFields f = .ok .nop) : f = fieldsNone Opcode.nop := by
  obtain ⟨hopc, hrsv, hsb, hsa, ha, hb⟩ := Fields.mk.inj (fields_of_decodeFields h)
  rw [← hsa] at ha
  rw [← hsb] at hb
  exact (Fields.mk.injEq ..).mpr ⟨hopc.symm, hrsv.symm, hsb.symm, hsa.symm, ha.symm, hb.symm⟩

/-- 0x00000000 is the only legal word of NOP (R107). -/
theorem decodeWord_eq_nop {w : Word} : decodeWord w = .ok .nop ↔ w = 0x00000000#32 := by
  constructor
  · intro h
    calc w = (Fields.ofWord w).toWord := (Fields.toWord_ofWord w).symm
      _ = (fieldsNone Opcode.nop).toWord := by rw [fields_of_decodeFields_nop h]
      _ = 0x00000000#32 := by decide
  · rintro rfl
    exact decodeWord_encode .nop

/-- A pending word that does not decode raises ILLEGAL_CMD under its own opcode (R76, R204). -/
theorem completeWord_illegal {w : Word} {e : DecodeError} (h : decodeWord w = .error e) (s : State) :
    completeWord w s = .next (s.raise (w.extractLsb' 24 8) .illegalCmd 0x00#8) := by
  rw [completeWord, h]
  rfl

/-- Settles O10: a word of OPC 0x00 that decodes is NOP, and NOP has one word. -/
theorem nopChangesOnlyDone : Obligations.NopChangesOnlyDone := by
  refine ⟨fun _ => decodeWord_eq_nop, fun s w hopc hw => ?_, fun _ => rfl⟩
  cases hdecode : decodeWord w with
  | ok i =>
    obtain rfl : i = .nop := eq_nop_of_decodeFields hopc hdecode
    exact absurd (decodeWord_eq_nop.1 hdecode) hw
  | error e =>
    refine ⟨_, completeWord_illegal hdecode s, ?_⟩
    rw [hopc]
    exact raisedFrom_raise _ _ _ _

/-! ## ADD -/

/-- Settles O11: bit i of a XOR is the XOR of the bits i. -/
theorem addIsBitwiseXor : Obligations.AddIsBitwiseXor :=
  ⟨fun s a b => ⟨_, exec_add a b s, onlyResult_setR _ _, fun _ _ => BitVec.getLsbD_xor⟩, fun _ => BitVec.xor_self⟩

/-! ## Bit strings as polynomials -/

section
variable {n m : Nat}

/-- Bit i is the coefficient of x^i (R101). -/
theorem coeff_toPoly (v : BitVec n) (i : Nat) : (toPoly v).coeff i = if v.getLsbD i then 1 else 0 := by
  simp only [toPoly, Polynomial.finsetSum_coeff, apply_ite (Polynomial.coeff · i), Polynomial.coeff_X_pow,
    Polynomial.coeff_zero]
  by_cases hi : i < n
  · rw [Finset.sum_eq_single_of_mem i (Finset.mem_range.2 hi) (fun j _ hj => by simp [hj.symm])]
    simp
  · rw [BitVec.getLsbD_of_ge v i (Nat.le_of_not_lt hi)]
    refine Finset.sum_eq_zero (fun j hj => ?_)
    have hne : i ≠ j := fun he => hi (he ▸ Finset.mem_range.1 hj)
    simp [hne]

theorem degree_toPoly_lt (v : BitVec n) : (toPoly v).degree < n :=
  (Polynomial.degree_lt_iff_coeff_zero _ _).2 (fun i hi => by rw [coeff_toPoly, BitVec.getLsbD_of_ge v i hi]; rfl)

/-- Bit strings that agree in every bit are the same polynomial, whatever their widths. -/
theorem toPoly_congr {v : BitVec n} {w : BitVec m} (h : ∀ i, v.getLsbD i = w.getLsbD i) : toPoly v = toPoly w := by
  ext i
  rw [coeff_toPoly, coeff_toPoly, h]

@[simp] theorem toPoly_zero : toPoly 0#n = 0 := by
  ext i
  simp [coeff_toPoly]

/-- XOR adds polynomials over GF(2). -/
theorem toPoly_xor (v w : BitVec n) : toPoly (v ^^^ w) = toPoly v + toPoly w := by
  ext i
  rw [Polynomial.coeff_add, coeff_toPoly, coeff_toPoly, coeff_toPoly, BitVec.getLsbD_xor]
  cases v.getLsbD i <;> cases w.getLsbD i <;> decide

/-- A shift that loses no bit multiplies by a power of x. -/
theorem toPoly_shiftLeft (v : BitVec n) {j : Nat} (h : n + j ≤ m) :
    toPoly (v.setWidth m <<< j) = toPoly v * X ^ j := by
  ext i
  rw [Polynomial.coeff_mul_X_pow', coeff_toPoly, coeff_toPoly, BitVec.getLsbD_shiftLeft, BitVec.getLsbD_setWidth]
  by_cases hj : j ≤ i
  · by_cases hi : i < m
    · simp [hj, hi, show i - j < m by omega]
    · simp [hj, hi, BitVec.getLsbD_of_ge v (i - j) (by omega)]
  · simp [hj, Nat.lt_of_not_le hj]

end

/-! ## MUL -/

/-- The first k passes of the first loop of R101: a times the part of b below x^k. -/
theorem toPoly_clMul_passes (a b : Byte) {k : Nat} (hk : k ≤ 8) :
    toPoly ((List.range k).foldl (fun p i => if b.getLsbD i then p ^^^ (a.setWidth 15 <<< i) else p) 0#15) =
      toPoly a * ∑ i ∈ Finset.range k, if b.getLsbD i then X ^ i else 0 := by
  induction k with
  | zero => simp
  | succ k ih =>
    rw [List.range_succ, List.foldl_append, Finset.sum_range_succ, mul_add, ← ih (by omega), List.foldl_cons,
      List.foldl_nil]
    split
    · rw [toPoly_xor, toPoly_shiftLeft a (by omega : 8 + k ≤ 15)]
    · rw [mul_zero, add_zero]

/-- The first loop of R101 gives the product. -/
theorem toPoly_clMul (a b : Byte) : toPoly (clMul a b) = toPoly a * toPoly b := toPoly_clMul_passes a b le_rfl

section
variable {poly : PolyBits} (hd : poly.getLsbD 8 = true)
include hd

theorem monic_toPoly : (toPoly poly).Monic :=
  Polynomial.monic_of_degree_le 8 (Order.le_of_lt_succ (degree_toPoly_lt poly)) (by rw [coeff_toPoly, hd]; rfl)

/-- A byte is its own remainder modulo POLY. -/
theorem toPoly_byte_modByMonic (v : Byte) : toPoly v %ₘ toPoly poly = toPoly v := by
  have hcoeff : (toPoly poly).coeff 8 ≠ 0 := by rw [coeff_toPoly, hd]; decide
  exact (Polynomial.modByMonic_eq_self_iff (monic_toPoly hd)).2
    ((degree_toPoly_lt v).trans_le (Polynomial.le_degree_of_ne_zero hcoeff))

/-- A pass of the second loop of R101 leaves the remainder: it adds nothing or a multiple of POLY. -/
theorem toPoly_reduceBit_modByMonic (p : Product) {i : Nat} (hi : i < 15) :
    toPoly (reduceBit poly p i) %ₘ toPoly poly = toPoly p %ₘ toPoly poly := by
  unfold reduceBit
  split
  · rw [toPoly_xor, toPoly_shiftLeft poly (by omega : 9 + (i - 8) ≤ 15), Polynomial.add_modByMonic,
      Polynomial.self_mul_modByMonic (monic_toPoly hd), add_zero]
  · rfl

/-- A pass of the second loop of R101 clears its bit, and leaves the bits above clear. -/
theorem getLsbD_reduceBit_of_le {p : Product} {i : Nat} (h8 : 8 ≤ i) (h15 : i < 15)
    (hp : ∀ j, i + 1 ≤ j → p.getLsbD j = false) : ∀ j, i ≤ j → (reduceBit poly p i).getLsbD j = false := by
  intro j hj
  cases hbit : p.getLsbD i with
  | true =>
    rw [reduceBit, if_pos hbit, BitVec.getLsbD_xor, BitVec.getLsbD_shiftLeft, BitVec.getLsbD_setWidth]
    rcases Nat.eq_or_lt_of_le hj with rfl | hlt
    · rw [hbit, show i - (i - 8) = 8 by omega, hd]
      simp [h15, show ¬ i < i - 8 by omega]
    · simp [hp j hlt, BitVec.getLsbD_of_ge poly (j - (i - 8)) (by omega)]
  | false =>
    rw [reduceBit_of_clear poly p i hbit]
    rcases Nat.eq_or_lt_of_le hj with rfl | hlt
    · exact hbit
    · exact hp j hlt

/-- The second loop of R101 gives the remainder modulo POLY: its passes leave the remainder, and they end below x^8. -/
theorem toPoly_reduce (p : Product) : toPoly (reduce poly p) = toPoly p %ₘ toPoly poly := by
  unfold reduce
  generalize hq : [14, 13, 12, 11, 10, 9, 8].foldl (reduceBit poly) p = q
  have hmod : toPoly q %ₘ toPoly poly = toPoly p %ₘ toPoly poly := by
    simp (disch := decide) only [← hq, List.foldl_cons, List.foldl_nil, toPoly_reduceBit_modByMonic hd]
  have hclear : ∀ j, 8 ≤ j → q.getLsbD j = false := by
    subst hq
    iterate 7 refine getLsbD_reduceBit_of_le hd (by decide) (by decide) ?_
    exact fun j hj => BitVec.getLsbD_of_ge p j hj
  have hlow : toPoly (q.extractLsb' 0 8) = toPoly q := toPoly_congr fun i => by
    by_cases hi : i < 8
    · simp [hi]
    · simp [hi, hclear i (Nat.le_of_not_lt hi)]
  calc toPoly (q.extractLsb' 0 8)
    _ = toPoly (q.extractLsb' 0 8) %ₘ toPoly poly := (toPoly_byte_modByMonic hd _).symm
    _ = toPoly p %ₘ toPoly poly := by rw [hlow, hmod]

end

/-- Multiplication is the product of polynomials modulo POLY, when POLY has degree 8 (R101). -/
theorem toPoly_gfMul {cfg : Config} (hd : cfg.poly.getLsbD 8 = true) (a b : Byte) :
    toPoly (gfMul cfg a b) = (toPoly a * toPoly b) %ₘ toPoly cfg.poly := by
  rw [gfMul, toPoly_reduce hd, toPoly_clMul]

/-- Settles O12, from the product and the remainder that the two loops of R101 give. -/
theorem mulIsProductModuloPoly : Obligations.MulIsProductModuloPoly :=
  fun s a b => ⟨_, exec_mul a b s, onlyResult_setR _ _, fun hd => toPoly_gfMul hd _ _⟩

/-! ## DIV and INV -/

section
variable {cfg : Config}

/-- Division by 0 has no value (R103). -/
theorem gfDiv_zero (cfg : Config) (a : Byte) : gfDiv cfg a 0x00#8 = none := if_pos rfl

/-- A quotient is the one element that multiplies back to the dividend (R103). -/
theorem gfDiv_eq_some_iff (h : configOk cfg = true) {a b q : Byte} (hb : b ≠ 0x00#8) :
    gfDiv cfg a b = some q ↔ gfMul cfg q b = a := by
  refine ⟨gfDiv_eq_some h, fun hq => ?_⟩
  obtain ⟨q', hq'⟩ := gfDiv_isSome h a hb
  rw [hq', gfMul_cancel h hb ((gfDiv_eq_some h hq').trans hq.symm)]

/-- An inverse is the one element that multiplies to 0x01 (R104). -/
theorem gfInv_eq_some_iff (h : configOk cfg = true) {a q : Byte} (ha : a ≠ 0x00#8) :
    gfInv cfg a = some q ↔ gfMul cfg a q = 0x01#8 := by
  rw [gfInv, gfDiv_eq_some_iff h ha, gfMul_comm]

/-- In a legal configuration a nonzero element has an inverse (R104). -/
theorem exists_gfInv (h : configOk cfg = true) {a : Byte} (ha : a ≠ 0x00#8) :
    ∃ q, gfInv cfg a = some q ∧ gfMul cfg a q = 0x01#8 := by
  obtain ⟨q, hq⟩ := gfDiv_isSome h 0x01#8 ha
  exact ⟨q, hq, (gfInv_eq_some_iff h ha).1 hq⟩

/-- A factor of 0x01 is not 0. -/
theorem ne_zero_of_gfMul_eq_one {a b : Byte} (h : gfMul cfg a b = 0x01#8) : b ≠ 0x00#8 := by
  rintro rfl
  rw [gfMul_zero] at h
  exact absurd h (by decide)

end

section
variable {s : State} {a b : Src} {q : Byte}

/-- DIV when its check passes and the quotient has a value (R110). -/
theorem exec_div_passes (hb : operandValue s b ≠ 0x00#8)
    (hq : gfDiv s.cfg (operandValue s a) (operandValue s b) = some q) :
    exec (.div a b) s = .next (s.setR q).complete := by
  rw [exec, execDiv, check_passes hb, hq, succeedWith_some]

/-- INV when its check passes and the inverse has a value (R111). -/
theorem exec_inv_passes (ha : operandValue s a ≠ 0x00#8) (hq : gfInv s.cfg (operandValue s a) = some q) :
    exec (.inv a) s = .next (s.setR q).complete := by
  rw [exec, execInv, check_passes ha, hq, succeedWith_some]

end

/-- Settles O13, from the quotient, which is the one element that multiplies back. -/
theorem divIsUniqueQuotient : Obligations.DivIsUniqueQuotient := by
  refine ⟨fun s a b h hb => ?_, gfDiv_zero⟩
  obtain ⟨q, hq⟩ := gfDiv_isSome h (operandValue s a) hb
  have hmul := gfDiv_eq_some h hq
  exact ⟨_, exec_div_passes hb hq, onlyResult_setR _ _, hmul, fun c hc => gfMul_cancel h hb (hc.trans hmul.symm)⟩

/-- Settles O14, from the inverse, which is the one element that multiplies to 0x01. -/
theorem invIsUniqueInverse : Obligations.InvIsUniqueInverse := by
  intro s a h ha
  obtain ⟨q, hq, hmul⟩ := exists_gfInv h ha
  refine ⟨_, exec_inv_passes ha hq, onlyResult_setR _ _, hmul, fun c hc => ?_, ?_⟩
  · exact Option.some.inj (((gfInv_eq_some_iff h ha).2 hc).symm.trans hq)
  · exact (gfInv_eq_some_iff h (ne_zero_of_gfMul_eq_one hmul)).2 ((gfMul_comm _ _ _).trans hmul)

/-- Settles O15: the check of the divisor comes first. -/
theorem divisionByZeroRaises : Obligations.DivisionByZeroRaises :=
  fun _ _ _ hb =>
    ⟨⟨_, check_raises hb _ _, raisedFrom_raise _ _ _ _⟩, ⟨_, check_raises hb _ _, raisedFrom_raise _ _ _ _⟩⟩

/-! ## POW -/

/-- 0 to a positive power is 0 (R105). -/
theorem gfPow_zero_left (cfg : Config) {n : Byte} (hn : n ≠ 0x00#8) : gfPow cfg 0x00#8 n = some 0x00#8 := by
  rw [gfPow, if_neg hn, if_pos rfl]

/-- A nonzero element to the 255th power is 0x01 (R106 item 7). -/
theorem gfPow_255 {cfg : Config} (h : configOk cfg = true) {a : Byte} (ha : a ≠ 0x00#8) :
    gfPow cfg a 0xFF#8 = some 0x01#8 := by
  obtain ⟨i, -, rfl⟩ := exists_genPow h ha
  rw [gfPow_eq_gfProduct h, gfProduct_replicate_genPow (configOk_degree h), ← expEntry_mod h,
    show (0xFF#8).toNat = 255 from rfl, Nat.mul_mod_left]
  rfl

/-- POW when the power has a value (R112). -/
theorem exec_pow {s : State} {a n : Src} {p : Byte} (hp : gfPow s.cfg (operandValue s a) (operandValue s n) = some p) :
    exec (.pow a n) s = .next (s.setR p).complete := by
  rw [exec, execPow, hp, succeedWith_some]

/-- Settles O16, from the power, which is the product of n copies. -/
theorem powIsIteratedProduct : Obligations.PowIsIteratedProduct := by
  intro s a n h
  have hp := gfPow_eq_gfProduct h (operandValue s a) (operandValue s n)
  refine ⟨_, exec_pow hp, onlyResult_setR _ _, rfl, fun hn => ?_, fun ha hn => ?_⟩
  · rw [hn]
    rfl
  · rw [ha, gfPow_zero_left s.cfg hn] at hp
    rw [ha]
    exact (Option.some.inj hp).symm

/-! ## EXP -/

/-- EXP has no check (R114). -/
theorem exec_exp (i : Src) (s : State) :
    exec (.exp i) s = .next (s.setR (expEntry s.cfg (operandValue s i).toNat)).complete := rfl

/-- Settles O18, from the recurrence and the ends of the table. -/
theorem expFollowsTheTable : Obligations.ExpFollowsTheTable := by
  intro s i
  obtain ⟨hfirst, hlast, hrec, -⟩ := expTableIsPowersOfGenerator s.cfg
  refine ⟨_, exec_exp i s, onlyResult_setR _ _, ?_, fun j hj hi => ⟨_, exec_exp (.imm j) s, ?_⟩⟩
  · rintro (h0 | h255)
    · rw [h0]
      exact hfirst
    · rw [h255]
      exact hlast
  · have hprev : (operandValue s i).toNat - 1 = j.toNat := by omega
    have hentry := hrec _ (by omega) hi
    rwa [hprev] at hentry

/-! ## The table form -/

/-- Settles O20: both factors are powers of GEN, or one of them is 0. -/
theorem tableFormEqualsProduct : Obligations.TableFormEqualsProduct := by
  intro cfg a b h
  unfold gfMulT
  split
  · next hzero => rcases hzero with rfl | rfl <;> simp
  · next hne =>
    obtain ⟨ha, hb⟩ := not_or.1 hne
    obtain ⟨i, -, hi, rfl⟩ := logEntry_of_ne_zero h ha
    obtain ⟨j, -, hj, rfl⟩ := logEntry_of_ne_zero h hb
    rw [hi, hj]
    exact congrArg some ((expEntry_mod h _).trans (genPow_add (configOk_degree h) i j))

/-! ## The laws of R106 -/

/-- Settles O21, law by law. -/
theorem fieldLawsHold : Obligations.FieldLawsHold := by
  intro cfg h
  have hd := configOk_degree h
  refine ⟨fun a b c => ⟨BitVec.xor_zero, gfMul_zero a, gfMul_one hd a, BitVec.xor_comm a b, gfMul_comm cfg a b,
      BitVec.xor_assoc a b c, gfMul_assoc hd a b c, gfMul_add_right cfg a b c⟩,
    fun a ha => ⟨exists_gfInv h ha, gfPow_255 h ha⟩,
    fun a b hb => ⟨(gfDiv_eq_some_iff h hb).2 rfl, Option.isSome_iff_exists.2 (gfDiv_isSome h a hb)⟩,
    fun a n => Option.isSome_iff_exists.2 (gfPow_isSome h a n), gfDiv_zero cfg, gfDiv_zero cfg _⟩

end Sys2Proof.Machine

/-! # Polynomial evaluator (41_polynomial_evaluator.md)

SUPPORT. The proofs for the commands of the evaluator: what SETT, WRC and the file reads leave, Horner's loop as the sum
of powers, the identifier check, EVAL and EVALX, and the secret byte that enough shares give back. -/

namespace Sys2Proof.Machine

/-! ## What a command leaves alone -/

theorem SameShell.refl (s : State) : SameShell s s := ⟨rfl, rfl, rfl, rfl, rfl, rfl⟩

theorem SameCounts.refl (s : State) : SameCounts s s := ⟨rfl, rfl⟩

theorem SameFiles.refl (s : State) : SameFiles s s := ⟨rfl, rfl, rfl, rfl, rfl⟩

/-! ## SETT, WRC and the file reads -/

section
variable {s : State} {i n : Byte}

/-- SETT when its check passes (R131). -/
theorem exec_sett_passes (h2 : 2 ≤ n.toNat) (hn : n.toNat ≤ s.cfg.nc) :
    exec (.sett n) s = .next (s.setT n).complete :=
  check_passes (not_or.2 ⟨Nat.not_lt.2 h2, Nat.not_lt.2 hn⟩) _ _

/-- RDC when its check passes (R133). -/
theorem exec_rdc_passes (hi : i.toNat < s.cfg.nc) :
    exec (.rdc i) s = .next (s.setR (Memory.read s.c i.toNat)).complete :=
  check_passes (Nat.not_le.2 hi) _ _

/-- RDX when its check passes (R155). -/
theorem exec_rdx_passes (hi : i.toNat < s.cfg.np) :
    exec (.rdx i) s = .next (s.setR (Memory.read s.x i.toNat)).complete :=
  check_passes (Nat.not_le.2 hi) _ _

/-- RDY when its check passes (R156). -/
theorem exec_rdy_passes (hi : i.toNat < s.cfg.np) :
    exec (.rdy i) s = .next (s.setR (Memory.read s.y i.toNat)).complete :=
  check_passes (Nat.not_le.2 hi) _ _

/-- RDW when its check passes (R157). -/
theorem exec_rdw_passes (hi : i.toNat < s.cfg.np) :
    exec (.rdw i) s = .next (s.setR (Memory.read s.w i.toNat)).complete :=
  check_passes (Nat.not_le.2 hi) _ _

end

/-- Settles O23: the check fails on exactly the other counts, and the write reaches only T. -/
theorem settStoresThreshold : Obligations.SettStoresThreshold := fun s _ =>
  ⟨fun ⟨h2, hn⟩ => ⟨_, exec_sett_passes h2 hn, completed_complete rfl (SameShell.refl s), rfl, rfl, rfl,
      SameFiles.refl s⟩,
    fun hn => ⟨_, check_raises hn _ _, raisedFrom_raise _ _ _ _⟩⟩

/-- Settles O24, from what a file reads after a write. -/
theorem wrcStoresOneCoefficient : Obligations.WrcStoresOneCoefficient := fun s _ v =>
  ⟨fun hi => ⟨_, exec_wrc_passes hi v, completed_complete rfl (SameShell.refl s), SameCounts.refl s, rfl,
      Memory.read_write_same _ _ _, fun _ hj => Memory.read_write_other _ hj _, rfl, rfl, rfl, rfl⟩,
    fun hi => ⟨_, check_raises hi _ _, raisedFrom_raise _ _ _ _⟩⟩

/-- Settles O26, command by command. -/
theorem fileReadsReturnOneEntry : Obligations.FileReadsReturnOneEntry := by
  intro s i
  refine ⟨fun hi => ⟨_, exec_rdc_passes hi, onlyResult_setR _ _, rfl⟩,
    fun hi => ⟨_, check_raises hi _ _, raisedFrom_raise _ _ _ _⟩, fun hi => ⟨?_, ?_, ?_⟩, fun hi => ⟨?_, ?_, ?_⟩⟩
  · exact ⟨_, exec_rdx_passes hi, onlyResult_setR _ _, rfl⟩
  · exact ⟨_, exec_rdy_passes hi, onlyResult_setR _ _, rfl⟩
  · exact ⟨_, exec_rdw_passes hi, onlyResult_setR _ _, rfl⟩
  · exact ⟨_, check_raises hi _ _, raisedFrom_raise _ _ _ _⟩
  · exact ⟨_, check_raises hi _ _, raisedFrom_raise _ _ _ _⟩
  · exact ⟨_, check_raises hi _ _, raisedFrom_raise _ _ _ _⟩

/-! ## EVAL -/

/-- The sum of C[i] times x^i for i below n, with x^0 = 0x01 (R130). -/
def powerSum (cfg : Config) (n : Nat) (c : Memory) (x : Byte) : Byte :=
  gfSum ((List.range n).map (fun i => gfMul cfg (Memory.read c i) (gfProduct cfg (List.replicate i x))))

section
variable {cfg : Config}

/-- The sum of one more element adds it last. -/
theorem gfSum_append_singleton (vs : List Byte) (v : Byte) : gfSum (vs ++ [v]) = gfAdd (gfSum vs) v :=
  List.foldl_append

theorem powerSum_succ (cfg : Config) (n : Nat) (c : Memory) (x : Byte) : powerSum cfg (n + 1) c x =
    gfAdd (powerSum cfg n c x) (gfMul cfg (Memory.read c n) (gfProduct cfg (List.replicate n x))) := by
  rw [powerSum, List.range_succ, List.map_append, List.map_singleton, gfSum_append_singleton, powerSum]

/-- Horner's loop from an accumulator: the accumulator times x^n, and the sum of powers (R130). -/
theorem hornerFrom_eq_powerSum (hd : cfg.poly.getLsbD 8 = true) (c : Memory) (x : Byte) (n : Nat) (acc : Byte) :
    hornerFrom cfg c x n acc = gfAdd (gfMul cfg acc (gfProduct cfg (List.replicate n x))) (powerSum cfg n c x) := by
  induction n generalizing acc with
  | zero => exact ((BitVec.xor_zero).trans (gfMul_one hd acc)).symm
  | succ n ih =>
    have hpower : gfMul cfg (gfMul cfg acc x) (gfProduct cfg (List.replicate n x)) =
        gfMul cfg acc (gfProduct cfg (List.replicate (n + 1) x)) := by
      rw [gfProduct_replicate_succ, gfMul_right_comm hd, gfMul_assoc hd]
    rw [hornerFrom, ih, gfAdd, gfAdd, gfMul_add_left, hpower, powerSum_succ, gfAdd, gfAdd, BitVec.xor_assoc,
      BitVec.xor_comm (powerSum cfg n c x)]

/-- Horner's loop gives the sum of powers, for every POLY of degree 8 (R130). -/
theorem horner_eq_powerSum (hd : cfg.poly.getLsbD 8 = true) (n : Nat) (c : Memory) (x : Byte) :
    horner cfg n c x = powerSum cfg n c x := by
  rw [horner, hornerFrom_eq_powerSum hd, zero_gfMul, gfAdd, BitVec.zero_xor]

end

/-- Settles O27, from the sum of powers that Horner's loop gives. -/
theorem evalIsPowerSum : Obligations.EvalIsPowerSum :=
  fun _ _ ht hx => ⟨_, exec_eval_passes ht hx, onlyResult_setR _ _, fun hd => horner_eq_powerSum hd _ _ _⟩

/-- Settles O28: the check of T comes before the check of the point. -/
theorem evalChecksInOrder : Obligations.EvalChecksInOrder := fun _ _ =>
  ⟨fun ht => ⟨_, check_raises ht _ _, raisedFrom_raise _ _ _ _⟩,
    fun ht hx => ⟨_, (check_passes (Nat.not_lt.2 ht) _ _).trans (check_raises hx _ _), raisedFrom_raise _ _ _ _⟩⟩

/-! ## The identifier check -/

section
variable {n k : Nat} {x : Memory}

theorem firstZeroId_eq_some : firstZeroId n x = some k ↔
    Memory.read x k = 0x00#8 ∧ k < n ∧ ∀ j < k, Memory.read x j ≠ 0x00#8 := by
  simp [firstZeroId, List.find?_range_eq_some]

theorem firstDuplicateId_eq_some : firstDuplicateId n x = some k ↔
    (∃ j < k, Memory.read x j = Memory.read x k) ∧ k < n ∧ ∀ l < k, ∀ j < l, Memory.read x j ≠ Memory.read x l := by
  simp [firstDuplicateId, List.find?_range_eq_some]

theorem checkIds_of_firstZeroId (h : firstZeroId n x = some k) : checkIds n x = some (.zeroId, byteOf k) := by
  rw [checkIds, h]

theorem checkIds_of_firstDuplicateId (h0 : firstZeroId n x = none) (h : firstDuplicateId n x = some k) :
    checkIds n x = some (.duplicateId, byteOf k) := by
  rw [checkIds, h0, h]

end

/-- Settles O30, from the two searches of the check. -/
theorem identifierCheckReportsSmallest : Obligations.IdentifierCheckReportsSmallest := by
  refine fun n x => ⟨fun k hk h0 hleast => ?_, fun k hk h0 hdup hleast => ?_, fun h0 hdistinct => ?_⟩
  · exact checkIds_of_firstZeroId (firstZeroId_eq_some.2 ⟨h0, hk, hleast⟩)
  · exact checkIds_of_firstDuplicateId (firstZeroId_eq_none.2 h0) (firstDuplicateId_eq_some.2 ⟨hdup, hk, hleast⟩)
  · exact checkIds_eq_none.2 ⟨h0, hdistinct⟩

/-! ## EVALX -/

section
variable {s : State}

/-- The value EVALX writes for a point is Horner's loop there (R136). -/
theorem shareValues_getElem {j : Nat} (hj : j < (shareValues s).length) :
    (shareValues s)[j] = horner s.cfg s.t.toNat s.c (Memory.read s.x j) := by
  simp [shareValues, Memory.take_getElem, indexOf]

/-- What EVALX leaves in Y: the shares below K, and the other entries as they were (R136). -/
theorem read_writeFrom_shareValues (s : State) (j : Nat) :
    Memory.read (Memory.writeFrom s.y 0 (shareValues s)) j =
      if j < s.k.toNat then horner s.cfg s.t.toNat s.c (Memory.read s.x j) else Memory.read s.y j := by
  simp [Memory.read_writeFrom, shareValues_getElem]

section
variable (ht : 2 ≤ s.t.toNat) (hk : 2 ≤ s.k.toNat) (htk : s.t.toNat ≤ s.k.toNat)
include ht hk htk

/-- When its checks of T and K pass, EVALX raises what the identifier check does or writes the shares (R136). -/
theorem exec_evalx_of_counts : exec .evalx s = (checkIds s.k.toNat s.x).elim
    (succeed (s.setY (Memory.writeFrom s.y 0 (shareValues s)))) (fun e => fail s Opcode.evalx e.1 e.2) := by
  have ht : ¬ indexOf s.t < 2 := Nat.not_lt.2 ht
  have hk : ¬ indexOf s.k < 2 := Nat.not_lt.2 hk
  have htk : ¬ indexOf s.k < indexOf s.t := Nat.not_lt.2 htk
  rw [exec, execEvalx, check_passes ht, check_passes hk, check_passes htk, show indexOf s.k = s.k.toNat from rfl]
  cases checkIds s.k.toNat s.x <;> rfl

/-- EVALX when the identifiers fail their check (R136). -/
theorem exec_evalx_raises {kind : ErrorKind} {info : Byte} (hx : checkIds s.k.toNat s.x = some (kind, info)) :
    exec .evalx s = fail s Opcode.evalx kind info := by
  rw [exec_evalx_of_counts ht hk htk, hx, Option.elim_some]

/-- EVALX when its checks pass (R136). -/
theorem exec_evalx_passes (hx : checkIds s.k.toNat s.x = none) :
    exec .evalx s = .next (s.setY (Memory.writeFrom s.y 0 (shareValues s))).complete := by
  rw [exec_evalx_of_counts ht hk htk, hx, Option.elim_none, succeed]

end

end

/-- Settles O31, from what Y reads after the write of the shares. -/
theorem evalxWritesShares : Obligations.EvalxWritesShares := fun s ht hk htk hx =>
  ⟨_, exec_evalx_passes ht hk htk hx, completed_complete rfl (SameShell.refl s), SameCounts.refl s, rfl,
    fun j hj => (read_writeFrom_shareValues s j).trans (if_pos hj),
    fun j hj => (read_writeFrom_shareValues s j).trans (if_neg (Nat.not_lt.2 hj)), rfl, rfl, rfl, rfl⟩

/-- Settles O32, check by check. -/
theorem evalxChecksInOrder : Obligations.EvalxChecksInOrder := by
  refine fun s => ⟨fun ht => ?_, fun ht hk => ?_, fun ht hk htk => ?_, fun kind info ht hk htk hx => ?_⟩
  · exact ⟨_, check_raises ht _ _, raisedFrom_raise _ _ _ _⟩
  · exact ⟨_, (check_passes (Nat.not_lt.2 ht) _ _).trans (check_raises hk _ _), raisedFrom_raise _ _ _ _⟩
  · exact ⟨_, (check_passes (Nat.not_lt.2 ht) _ _).trans
      ((check_passes (Nat.not_lt.2 hk) _ _).trans (check_raises htk _ _)), raisedFrom_raise _ _ _ _⟩
  · exact ⟨_, exec_evalx_raises ht hk htk hx, raisedFrom_raise _ _ _ _⟩

/-! ## Recombination -/

/-- At the point 0 Horner's loop ends with C[0] (R130). -/
theorem hornerFrom_zero (cfg : Config) (c : Memory) (n : Nat) (acc : Byte) :
    hornerFrom cfg c 0x00#8 (n + 1) acc = Memory.read c 0 := by
  induction n generalizing acc with
  | zero => rw [hornerFrom, hornerFrom, gfMul_zero, gfAdd, BitVec.zero_xor]
  | succ n ih => rw [hornerFrom, ih]

/-- horner(n, C, 0x00) is C[0] (R130). -/
theorem horner_zero (cfg : Config) {n : Nat} (hn : 1 ≤ n) (c : Memory) :
    horner cfg n c 0x00#8 = Memory.read c 0 := by
  obtain ⟨m, rfl⟩ := Nat.exists_eq_add_of_le' hn
  exact hornerFrom_zero cfg c m _

section
variable {cfg : Config} {n m : Nat} {c x y w : Memory}

/-- Each entry of W is the weight of its point when the first n of them are the weights of n points (R28). -/
theorem lagW_eq_read (hw : lagWeights cfg n x = some (Memory.take w n)) {k : Nat} (hk : k < n) :
    lagW cfg n x k = some (Memory.read w k) := by
  obtain ⟨hlen, hget⟩ := lagWeights_eq_some hw
  rw [hget k (hlen.symm ▸ hk), Memory.take_getElem]

/-- Combining values of points with the weights of the points is evaluating at 0 the polynomial through them (R151). -/
theorem lagComb_eq_interpolate (h : configOk cfg = true) (hw : lagWeights cfg n x = some (Memory.take w n)) :
    let _ := fieldOf h
    (⟨lagComb cfg n y w⟩ : Elem cfg) =
      (Lagrange.interpolate (Finset.range n) (element cfg x) (element cfg y)).eval 0 := by
  intro _
  rw [lagComb, foldl_gfAdd_eq_sum h, Lagrange.interpolate_apply, Polynomial.eval_finsetSum]
  refine Finset.sum_congr rfl (fun k hk => ?_)
  rw [Polynomial.eval_mul, Polynomial.eval_C, ← lagW_eq_basis h (lagW_eq_read hw (Finset.mem_range.1 hk))]
  rfl

/-- The polynomial with the coefficients C[0..m-1] (R130). -/
noncomputable def coefficientPoly (cfg : Config) [Semiring (Elem cfg)] (c : Memory) (m : Nat) :
    Polynomial (Elem cfg) :=
  ∑ i ∈ Finset.range m, Polynomial.C (element cfg c i) * Polynomial.X ^ i

theorem degree_coefficientPoly_lt [Semiring (Elem cfg)] (c : Memory) (m : Nat) :
    (coefficientPoly cfg c m).degree < m := by
  rw [coefficientPoly, Finset.sum_range]
  exact Polynomial.degree_sum_fin_lt _

/-- Horner's loop evaluates the polynomial (R130). -/
theorem eval_coefficientPoly (h : configOk cfg = true) (c : Memory) (m : Nat) (p : Byte) : let _ := fieldOf h
    (coefficientPoly cfg c m).eval ⟨p⟩ = ⟨horner cfg m c p⟩ :=
  (horner_eq_eval h c p m).symm

/-- The polynomial through n values of a polynomial of at most n coefficients at distinct points is that polynomial
(R162). -/
theorem interpolate_shares (h : configOk cfg = true) (hx : checkIds n x = none) (hmn : m ≤ n)
    (hy : ∀ k < n, Memory.read y k = horner cfg m c (Memory.read x k)) : let _ := fieldOf h
    Lagrange.interpolate (Finset.range n) (element cfg x) (element cfg y) = coefficientPoly cfg c m := by
  intro _
  have hdegree : (coefficientPoly cfg c m).degree < (Finset.range n).card := by
    rw [Finset.card_range]
    exact (degree_coefficientPoly_lt c m).trans_le (Nat.cast_le.2 hmn)
  have hvalues : ∀ k ∈ Finset.range n, (coefficientPoly cfg c m).eval (element cfg x k) = element cfg y k :=
    fun k hk => (eval_coefficientPoly h c m _).trans (Elem.ext (hy k (Finset.mem_range.1 hk)).symm)
  exact (Lagrange.eq_interpolate_of_eval_eq _ (element_injOn hx) hdegree hvalues).symm

/-- Values of a polynomial of at most n coefficients at n distinct points combine to its coefficient C[0] (R162). -/
theorem lagComb_of_shares (h : configOk cfg = true) (hx : checkIds n x = none)
    (hw : lagWeights cfg n x = some (Memory.take w n)) (hm : 1 ≤ m) (hmn : m ≤ n)
    (hy : ∀ k < n, Memory.read y k = horner cfg m c (Memory.read x k)) : lagComb cfg n y w = Memory.read c 0 := by
  let := fieldOf h
  refine congrArg Elem.val (?_ : (⟨lagComb cfg n y w⟩ : Elem cfg) = ⟨Memory.read c 0⟩)
  calc (⟨lagComb cfg n y w⟩ : Elem cfg)
    _ = (Lagrange.interpolate (Finset.range n) (element cfg x) (element cfg y)).eval 0 := lagComb_eq_interpolate h hw
    _ = (coefficientPoly cfg c m).eval 0 := by rw [interpolate_shares h hx hmn hy]
    _ = ⟨horner cfg m c 0x00#8⟩ := eval_coefficientPoly h c m _
    _ = ⟨Memory.read c 0⟩ := by rw [horner_zero cfg hm]

end

/-- INTERP when its checks pass and the weights have values (R160). -/
theorem exec_interp_passes {s : State} {ws : List Byte} (hk : 2 ≤ s.k.toNat) (hx : checkIds s.k.toNat s.x = none)
    (hw : lagWeights s.cfg s.k.toNat s.x = some ws) : exec .interp s = .next (s.storeWeights ws).combine.complete := by
  have hk : ¬ indexOf s.k < 2 := Nat.not_lt.2 hk
  rw [exec, execInterp, check_passes hk, show indexOf s.k = s.k.toNat from rfl, hx, hw]
  rfl

/-- INTERP on values of a polynomial of at most K coefficients gives its coefficient C[0] (R162). -/
theorem exec_interp_of_shares {s : State} {c : Memory} {m : Nat} (h : configOk s.cfg = true) (hk : 2 ≤ s.k.toNat)
    (hx : checkIds s.k.toNat s.x = none) (hm : 1 ≤ m) (hmk : m ≤ s.k.toNat)
    (hy : ∀ k < s.k.toNat, Memory.read s.y k = horner s.cfg m c (Memory.read s.x k)) :
    ∃ t, exec .interp s = .next t ∧ t.r = Memory.read c 0 := by
  obtain ⟨ws, hw⟩ := lagWeights_isSome h hx
  exact ⟨_, exec_interp_passes hk hx hw, lagComb_of_shares h hx (lagWeights_storeWeights hw) hm hmk hy⟩

/-- Settles O39: the values of the points named are those of the polynomial that EVALX evaluated. -/
theorem splitThenCombineGivesSecret : Obligations.SplitThenCombineGivesSecret := by
  intro s h ht htk hx
  obtain ⟨t, hexec, -, -, -, hshares, -, -, hpoints, -⟩ := evalxWritesShares s ht (ht.trans htk) htk hx
  refine ⟨t, hexec, fun u hcfg htu hux hnamed => ?_⟩
  refine exec_interp_of_shares (hcfg ▸ h) (ht.trans htu) hux (Nat.one_le_of_lt ht) htu (fun k hk => ?_)
  obtain ⟨j, hj, hxj, hyj⟩ := hnamed k hk
  rw [hyj, hshares j hj, hxj, hpoints, hcfg]

end Sys2Proof.Machine

/-! # Lagrange interpolator (42_lagrange_interpolator.md)

SUPPORT. The proofs for the commands of the interpolator: what SETK, WRX and WRY leave, the errors of LAGW and INTERP,
the weights as quotients of products, their sum, and the value that LCOMB and INTERP combine. -/

namespace Sys2Proof.Machine

/-! ## SETK, WRX and WRY -/

section
variable {s : State} {n : Byte}

/-- SETK when its check passes (R152). -/
theorem exec_setk_passes (h2 : 2 ≤ n.toNat) (hn : n.toNat ≤ s.cfg.np) :
    exec (.setk n) s = .next ((s.setK n).setWvalid false).complete :=
  check_passes (not_or.2 ⟨Nat.not_lt.2 h2, Nat.not_lt.2 hn⟩) _ _

/-- WRX when its check passes (R153). -/
theorem exec_wrx_passes (hn : n.toNat < s.cfg.np) (v : Src) : exec (.wrx n v) s =
    .next ((s.setX (Memory.write s.x n.toNat (operandValue s v))).setWvalid false).complete :=
  check_passes (Nat.not_le.2 hn) _ _

/-- WRY when its check passes (R154). -/
theorem exec_wry_passes (hn : n.toNat < s.cfg.np) (v : Src) :
    exec (.wry n v) s = .next (s.setY (Memory.write s.y n.toNat (operandValue s v))).complete :=
  check_passes (Nat.not_le.2 hn) _ _

end

/-- Settles O33: the check fails on exactly the other counts, and the write reaches only K and WVALID. -/
theorem setkStoresCount : Obligations.SetkStoresCount := fun s _ =>
  ⟨fun ⟨h2, hn⟩ => ⟨_, exec_setk_passes h2 hn, completed_complete rfl (SameShell.refl s), rfl, rfl, rfl, rfl, rfl,
      rfl, rfl, rfl⟩,
    fun hn => ⟨_, check_raises hn _ _, raisedFrom_raise _ _ _ _⟩⟩

/-- Settles O25, from what a file reads after a write. -/
theorem wrxAndWryStoreOneEntry : Obligations.WrxAndWryStoreOneEntry := by
  refine fun s i v => ⟨fun hi => ⟨?_, ?_⟩, fun hi => ⟨?_, ?_⟩⟩
  · exact ⟨_, exec_wrx_passes hi v, completed_complete rfl (SameShell.refl s), SameCounts.refl s, rfl,
      Memory.read_write_same _ _ _, fun _ hj => Memory.read_write_other _ hj _, rfl, rfl, rfl, rfl⟩
  · exact ⟨_, exec_wry_passes hi v, completed_complete rfl (SameShell.refl s), SameCounts.refl s, rfl,
      Memory.read_write_same _ _ _, fun _ hj => Memory.read_write_other _ hj _, rfl, rfl, rfl, rfl⟩
  · exact ⟨_, check_raises hi _ _, raisedFrom_raise _ _ _ _⟩
  · exact ⟨_, check_raises hi _ _, raisedFrom_raise _ _ _ _⟩

/-! ## LAGW, LCOMB and INTERP -/

section
variable {s : State}

section
variable (hk : 2 ≤ s.k.toNat)
include hk

/-- When its check of K passes, LAGW raises what the identifier check does or stores the weights (R158). -/
theorem exec_lagw_of_count : exec .lagw s = (checkIds s.k.toNat s.x).elim
    (succeedWith (lagWeights s.cfg s.k.toNat s.x) s.storeWeights) (fun e => fail s Opcode.lagw e.1 e.2) := by
  have hk : ¬ indexOf s.k < 2 := Nat.not_lt.2 hk
  rw [exec, execLagw, check_passes hk, show indexOf s.k = s.k.toNat from rfl]
  cases checkIds s.k.toNat s.x <;> rfl

/-- LAGW when its checks pass and the weights have values (R158). -/
theorem exec_lagw_passes {ws : List Byte} (hx : checkIds s.k.toNat s.x = none)
    (hw : lagWeights s.cfg s.k.toNat s.x = some ws) : exec .lagw s = .next (s.storeWeights ws).complete := by
  rw [exec_lagw_of_count hk, hx, Option.elim_none, hw, succeedWith_some]

variable {kind : ErrorKind} {info : Byte} (hx : checkIds s.k.toNat s.x = some (kind, info))
include hx

/-- LAGW when the identifiers fail their check (R158). -/
theorem exec_lagw_raises : exec .lagw s = fail s Opcode.lagw kind info := by
  rw [exec_lagw_of_count hk, hx, Option.elim_some]

/-- INTERP when the identifiers fail their check (R160). -/
theorem exec_interp_raises : exec .interp s = fail s Opcode.interp kind info := by
  have hk : ¬ indexOf s.k < 2 := Nat.not_lt.2 hk
  rw [exec, execInterp, check_passes hk, show indexOf s.k = s.k.toNat from rfl, hx]

end

/-- LCOMB when the weights are valid (R159). -/
theorem exec_lcomb_passes (hw : s.wvalid = true) : exec .lcomb s = .next s.combine.complete :=
  check_passes (Bool.not_eq_false _ ▸ hw) _ _

end

/-- Settles O35: the check of K comes before the identifier check. -/
theorem lagwAndInterpChecksInOrder : Obligations.LagwAndInterpChecksInOrder := by
  refine fun s => ⟨fun hk => ⟨?_, ?_⟩, fun kind info hk hx => ⟨?_, ?_⟩⟩
  · exact ⟨_, check_raises hk _ _, raisedFrom_raise _ _ _ _⟩
  · exact ⟨_, check_raises hk _ _, raisedFrom_raise _ _ _ _⟩
  · exact ⟨_, exec_lagw_raises hk hx, raisedFrom_raise _ _ _ _⟩
  · exact ⟨_, exec_interp_raises hk hx, raisedFrom_raise _ _ _ _⟩

/-- Settles O37: the combination that INTERP ends with is the write of LCOMB, in the state that LAGW leaves. -/
theorem interpIsLagwThenLcomb : Obligations.InterpIsLagwThenLcomb := by
  intro s h hk hx
  obtain ⟨ws, hw⟩ := lagWeights_isSome h hx
  exact ⟨_, _, exec_lagw_passes hk hx hw, exec_lcomb_passes rfl, exec_interp_passes hk hx hw⟩

/-- The loop of lag_comb is a sum of products (R151). -/
theorem lagComb_eq_gfSum (cfg : Config) (n : Nat) (y w : Memory) : lagComb cfg n y w =
    gfSum ((List.range n).map (fun k => gfMul cfg (Memory.read y k) (Memory.read w k))) :=
  List.foldl_map.symm

/-- Settles O36, from the sum that lag_comb is. -/
theorem lcombSumsWeightedValues : Obligations.LcombSumsWeightedValues := fun _ =>
  ⟨fun hw => ⟨_, exec_lcomb_passes hw, onlyResult_setR _ _, lagComb_eq_gfSum _ _ _ _⟩,
    fun hw => ⟨_, check_raises hw _ _, raisedFrom_raise _ _ _ _⟩⟩

/-- Settles O38: the weights are those that INTERP computes, or those that WVALID = 1 promises. -/
theorem sharesRecombineToSecret : Obligations.SharesRecombineToSecret := by
  refine fun s c n hn hnk hy => ⟨fun h hx => ?_, fun hinv hvalid => ?_⟩
  · exact exec_interp_of_shares h (hn.trans hnk) hx (Nat.one_le_of_lt hn) hnk hy
  · obtain ⟨-, hx, hw⟩ := hinv.weights hvalid
    exact ⟨_, exec_lcomb_passes hvalid, lagComb_of_shares hinv.config hx hw (Nat.one_le_of_lt hn) hnk hy⟩

/-! ## The weights -/

section
variable {cfg : Config} (h : configOk cfg = true) {n k : Nat} {x w : Memory} {v : Byte}

/-- The block's product of a list is the field's. -/
theorem gfProduct_eq_prod (vs : List Byte) : let _ := fieldOf h
    (⟨gfProduct cfg vs⟩ : Elem cfg) = (vs.map Elem.mk).prod := by
  intro _
  rw [List.prod_eq_foldl, List.foldl_map]
  exact (List.foldl_hom Elem.mk (fun _ _ => rfl)).symm

theorem othersBelow_nodup (n k : Nat) : (othersBelow n k).Nodup := List.nodup_range.filter _

theorem othersBelow_toFinset (n k : Nat) : (othersBelow n k).toFinset = (Finset.range n).erase k := by
  ext j
  simp [othersBelow, and_comm]

/-- A product over the other points (R150). -/
theorem gfProduct_othersBelow (n k : Nat) (f : Nat → Byte) : let _ := fieldOf h
    (⟨gfProduct cfg ((othersBelow n k).map f)⟩ : Elem cfg) = ∏ j ∈ (Finset.range n).erase k, ⟨f j⟩ := by
  intro _
  rw [gfProduct_eq_prod h, List.map_map, ← othersBelow_toFinset,
    List.prod_toFinset _ (othersBelow_nodup n k)]
  rfl

include h

/-- A weight times the product of the differences X[j] ⊕ X[k] is the product of the X[j] (R150). -/
theorem lagW_mul_differences (hx : checkIds n x = none) (hk : k < n) (hv : lagW cfg n x k = some v) :
    gfMul cfg v (gfProduct cfg
      ((othersBelow n k).map (fun j => gfAdd (Memory.read x j) (Memory.read x k)))) =
    gfProduct cfg ((othersBelow n k).map (Memory.read x)) := by
  let := fieldOf h
  have hdifferences : ∏ j ∈ (Finset.range n).erase k, (element cfg x j - element cfg x k) ≠ 0 := by
    refine Finset.prod_ne_zero_iff.2 (fun j hj => sub_ne_zero.2 (fun he => ?_))
    obtain ⟨hjk, hj⟩ := Finset.mem_erase.1 hj
    exact hjk (element_injOn hx (by simpa using hj) (by simpa using hk) he)
  refine congrArg Elem.val (?_ : (⟨v⟩ : Elem cfg) * ⟨gfProduct cfg _⟩ = ⟨gfProduct cfg _⟩)
  rw [gfProduct_othersBelow h, gfProduct_othersBelow h, lagW_eq_prod h hv, Finset.prod_div_distrib]
  exact div_mul_cancel₀ _ hdifferences

/-- The product of nonzero elements is nonzero. -/
theorem gfProduct_ne_zero {vs : List Byte} (hvs : ∀ v ∈ vs, v ≠ 0x00#8) : gfProduct cfg vs ≠ 0x00#8 := by
  let := fieldOf h
  have hprod : (vs.map (Elem.mk (cfg := cfg))).prod ≠ 0 :=
    List.prod_ne_zero (fun hz => by
      obtain ⟨v, hv, h0⟩ := List.mem_map.1 hz
      exact hvs v hv (congrArg Elem.val h0))
  rw [← gfProduct_eq_prod h] at hprod
  exact fun h0 => hprod (Elem.ext h0)

/-- A weight is nonzero, because the identifiers are (R150). -/
theorem lagW_ne_zero (hx : checkIds n x = none) (hk : k < n) (hv : lagW cfg n x k = some v) : v ≠ 0x00#8 := by
  rintro rfl
  have hzero := lagW_mul_differences h hx hk hv
  rw [zero_gfMul] at hzero
  refine gfProduct_ne_zero h (fun v hv => ?_) hzero.symm
  obtain ⟨j, hj, rfl⟩ := List.mem_map.1 hv
  exact (checkIds_eq_none.1 hx).1 j (List.mem_range.1 (List.mem_of_mem_filter hj))

/-- The weights are the values at 0 of basis polynomials, which sum to 1 (R150). -/
theorem gfSum_lagWeights (hn : 1 ≤ n) (hx : checkIds n x = none)
    (hw : lagWeights cfg n x = some (Memory.take w n)) : gfSum (Memory.take w n) = 0x01#8 := by
  let := fieldOf h
  refine congrArg Elem.val (?_ : (⟨gfSum (Memory.take w n)⟩ : Elem cfg) = 1)
  calc (⟨gfSum (Memory.take w n)⟩ : Elem cfg)
    _ = ∑ k ∈ Finset.range n, element cfg w k := by
      rw [gfSum, Memory.take, List.foldl_map]
      exact foldl_gfAdd_eq_sum h (Memory.read w) n
    _ = ∑ k ∈ Finset.range n, (Lagrange.basis (Finset.range n) (element cfg x) k).eval 0 :=
      Finset.sum_congr rfl (fun k hk => lagW_eq_basis h (lagW_eq_read hw (Finset.mem_range.1 hk)))
    _ = (1 : Polynomial (Elem cfg)).eval 0 := by
      rw [← Polynomial.eval_finsetSum, Lagrange.sum_basis (element_injOn hx) (Finset.nonempty_range_iff.2 (by omega))]
    _ = 1 := Polynomial.eval_one

end

/-- Settles O34, from what W reads after the write of the weights. -/
theorem lagwComputesWeights : Obligations.LagwComputesWeights := by
  intro s h hk hx
  obtain ⟨ws, hw⟩ := lagWeights_isSome h hx
  obtain ⟨hlen, -⟩ := lagWeights_eq_some hw
  refine ⟨_, exec_lagw_passes hk hx hw, completed_complete rfl (SameShell.refl s), SameCounts.refl s, rfl, rfl,
    fun j hj => ?_, fun j hj => ?_, rfl, rfl, rfl⟩
  · have hread := lagW_eq_read (lagWeights_storeWeights hw) hj
    exact ⟨lagW_ne_zero h hx hj hread, lagW_mul_differences h hx hj hread⟩
  · exact (Memory.read_writeFrom s.w 0 j ws).trans (dif_neg (by omega))

/-- Settles O40: the weights exist, and a file that holds them holds the values at 0 of the basis polynomials. -/
theorem weightsSumToOne : Obligations.WeightsSumToOne := by
  intro cfg n x h hn hx
  obtain ⟨ws, hw⟩ := lagWeights_isSome h hx
  obtain ⟨rfl, -⟩ := lagWeights_eq_some hw
  have htake : Memory.take (Memory.writeFrom [] 0 ws) ws.length = ws := Memory.take_writeFrom [] ws
  have hsum := gfSum_lagWeights h hn hx (hw.trans (congrArg some htake.symm))
  exact ⟨ws, hw, htake ▸ hsum⟩

end Sys2Proof.Machine

/-! # Housekeeping (43_housekeeping.md)

SUPPORT. The proof for the command ZERO. -/

namespace Sys2Proof.Machine

/-- ZERO has no check: it always ends with the erased state (R180). -/
theorem exec_zero (s : State) : exec .zero s = .next
    ((((((s.setC Memory.zeroed).setX Memory.zeroed).setY Memory.zeroed).setW Memory.zeroed).setR
      0x00#8).setWvalid false).complete := rfl

/-- Every entry of an erased file is 0x00 (R180). -/
@[simp] theorem Memory.read_zeroed (i : Nat) : Memory.read Memory.zeroed i = 0x00#8 := Memory.read_nil i

/-- Settles O41: the writes of ZERO reach the four files, R and WVALID, and an erased file reads 0x00 everywhere. -/
theorem zeroErasesFilesAndResult : Obligations.ZeroErasesFilesAndResult := fun s =>
  ⟨_, exec_zero s, completed_complete rfl (SameShell.refl s), SameCounts.refl s, rfl, rfl, fun i =>
    have hentry := Memory.read_zeroed i
    ⟨hentry, hentry, hentry, hentry⟩⟩

end Sys2Proof.Machine

/-! # Exceptions (60_exceptions.md)

SUPPORT. The proofs for the engine's turn with a command pending, the two ends of a command, the acceptance of a command
word, the halt while an error is pending, and the interrupt line. -/

namespace Sys2Proof.Machine

/-! ## The ends of a command -/

/-- Settles O7: a turn given to the engine is its step, and its step is the pending command's meaning. -/
theorem engineRunsPendingCommand : Obligations.EngineRunsPendingCommand := by
  intro s w i rest hr hp hd
  refine ⟨fun ha => ?_, fun ha => ?_⟩
  · exact (step_of_no_turns ha).trans (engineStep_command hr hp hd)
  · exact (step_engine ha).trans (engineStep_command (s := s.setAgenda rest) hr hp hd)

/-- Every effect of a command but raising ends in success: no write phase reaches the error record or the shell. -/
theorem Effect.completed_or_raised {i : Instr} {s t : State} (h : Effect i s t) :
    Completed s t ∨ ∃ kind info, RaisedFrom s t kind i.opcode info := by
  cases h with
  | raised opc kind info ho => exact .inr ⟨kind, info, ho ▸ raisedFrom_raise s opc kind info⟩
  | _ => exact .inl (completed_complete rfl (SameShell.refl s))

/-- Settles O42, from the effects that commands have. -/
theorem errorsArePrecise : Obligations.ErrorsArePrecise :=
  fun _ _ _ h => (exec_effect h).completed_or_raised

/-! ## Acceptance of a command -/

section
variable {s : State}

/-- A word offered too early or while a command runs is dropped with CMD_OVERRUN (R203). -/
theorem offerCommand_overrun (h : s.ready = false ∨ s.busy = true) (v : Word) :
    s.offerCommand v = s.setErr (s.err.record .cmdOverrun (v.extractLsb' 24 8) 0x00#8) := if_pos h

section
variable (hr : s.ready = true) (hb : s.busy = false)
include hr hb

theorem not_overrun : ¬ (s.ready = false ∨ s.busy = true) := by simp [hr, hb]

/-- A word offered while an error is pending is dropped and noted in MULTI (R203). -/
theorem offerCommand_halted (he : s.err.code ≠ 0x00#8) (v : Word) : s.offerCommand v = s.setErr s.err.markMulti :=
  (if_neg (not_overrun hr hb)).trans (if_pos ((isPending_iff _).2 he))

/-- A word offered to an idle block without a pending error becomes the pending command (R203). -/
theorem offerCommand_accepted (he : s.err.code = 0x00#8) (v : Word) : s.offerCommand v = s.setPending (some v) :=
  (if_neg (not_overrun hr hb)).trans (if_neg (mt (isPending_iff _).1 (not_not_intro he)))

end

end

/-- Settles O43, from the three ends of an offered word. -/
theorem commandWriteIsAcceptedOrDropped : Obligations.CommandWriteIsAcceptedOrDropped := by
  intro s v rest ha
  rw [step_cmdWrite ha]
  refine ⟨fun h => ?_, fun hr hb he => ?_, fun hr hb he => ?_⟩
  · rw [offerCommand_overrun (s := s.setAgenda rest) h]
    rfl
  · rw [offerCommand_halted (s := s.setAgenda rest) hr hb he]
    rfl
  · rw [offerCommand_accepted (s := s.setAgenda rest) hr hb he]
    rfl

/-! ## The halt while an error is pending -/

/-- The block is ready, runs no command, and has an error pending (R206). -/
def Halted (s : State) : Prop := s.ready = true ∧ s.pending = none ∧ s.err.code ≠ 0x00#8

/-- From a halted `s`, the block idles in `t` with the same error and the same data; only MULTI, DONE and the enables
may differ, and the model's own turns and answers. -/
def KeepsHalt (s t : State) : Prop :=
  t.ready = true ∧ t.pending = none ∧ t.err.code = s.err.code ∧ t.err.opc = s.err.opc ∧ t.err.info = s.err.info ∧
    t.r = s.r ∧ SameCounts s t ∧ SameFiles s t

section
variable {s : State} (h : Halted s)
include h

/-- Stated of one state; an update of the turns, the answers, MULTI, DONE or the enables has it by definition. -/
theorem Halted.keepsHalt_refl : KeepsHalt s s :=
  let ⟨hr, hp, _⟩ := h
  ⟨hr, hp, rfl, rfl, rfl, rfl, SameCounts.refl s, SameFiles.refl s⟩

/-- The engine has nothing to complete and no reset sequence to end (R210). -/
theorem Halted.engineStep_keepsHalt {t : State} (ht : engineStep s = .next t) : KeepsHalt s t := by
  have hidle := h.keepsHalt_refl
  obtain ⟨hr, hp, -⟩ := h
  rw [engineStep_idle hr hp] at ht
  cases ht
  exact hidle

theorem Halted.writeCtrl_keepsHalt {v : Word} (hclr : v.getLsbD 8 = false) (hsrst : v.getLsbD 16 = false) :
    KeepsHalt s (s.writeCtrl v) := by
  rw [writeCtrl_of_not_srst hsrst, hclr]
  exact h.keepsHalt_refl

/-- The word offered is dropped, and only MULTI says so. -/
theorem Halted.offerCommand_keepsHalt (v : Word) : KeepsHalt s (s.offerCommand v) := by
  have hidle := h.keepsHalt_refl
  obtain ⟨hr, hp, he⟩ := h
  rw [offerCommand_halted hr (by rw [State.busy, hp]; rfl) he]
  exact hidle

end

/-- Settles O44, agent by agent: the engine idles, a read changes nothing, and of the writes only an ERR_CLR or an SRST
would end the halt. -/
theorem pendingErrorHaltsCommands : Obligations.PendingErrorHaltsCommands := by
  intro s t hr hp he hreset hctrl hs
  have hhalt : Halted s := ⟨hr, hp, he⟩
  have hrest : ∀ rest, Halted (s.setAgenda rest) := fun _ => hhalt
  change KeepsHalt s t
  rcases step_cases hs with ⟨-, ht⟩ | ⟨rest, -, ht⟩ | ⟨rest, ha, -⟩ | ⟨rest, size, off, -, -, rfl⟩ |
    ⟨rest, size, off, strobes, v, ha, -, rfl⟩
  · exact hhalt.engineStep_keepsHalt ht
  · exact (hrest rest).engineStep_keepsHalt ht
  · exact absurd ha (hreset rest)
  · exact hhalt.keepsHalt_refl
  · rcases hostWrite_cases (s.setAgenda rest) size off strobes v with hw | ⟨⟨rfl, rfl, rfl⟩, hw⟩ | ⟨-, hw⟩ <;> rw [hw]
    · exact hhalt.keepsHalt_refl
    · obtain ⟨hclr, hsrst⟩ := hctrl v rest ha
      exact (hrest rest).writeCtrl_keepsHalt hclr hsrst
    · exact (hrest rest).offerCommand_keepsHalt v

/-! ## The interrupt line -/

section
variable {s t : State}

/-- The line is high exactly when an enabled cause stands (R207). -/
theorem irq_iff : s.irq = true ↔ (s.ieDone = true ∧ s.done = true) ∨ (s.ieErr = true ∧ s.err.code ≠ 0x00#8) := by
  simp [State.irq, isPending_iff]

theorem irq_of_no_cause (hdone : s.done = false) (herr : s.err.code = 0x00#8) : s.irq = false := by
  simp [State.irq, ErrorRecord.isPending, hdone, herr]

theorem irq_of_disabled (hieDone : s.ieDone = false) (hieErr : s.ieErr = false) : s.irq = false := by
  simp [State.irq, hieDone, hieErr]

/-- A success raises the line under IE_DONE. -/
theorem Completed.irq (h : Completed s t) (hie : s.ieDone = true) : t.irq = true := by
  obtain ⟨-, hdone, -, -, -, hieDone, -⟩ := h
  exact irq_iff.2 (.inl ⟨hieDone.trans hie, hdone⟩)

/-- An error raises the line under IE_ERR. -/
theorem RaisedFrom.irq {kind : ErrorKind} {opc info : Byte} (h : RaisedFrom s t kind opc info)
    (hie : s.ieErr = true) : t.irq = true := by
  obtain rfl := raisedFrom_iff.1 h
  exact irq_iff.2 (.inr ⟨hie, record_code_ne_zero _ _ _ _⟩)

/-- A CTRL write that clears both causes or both enables, or resets, lowers the line. -/
theorem writeCtrl_irq {v : Word} (h : (v.getLsbD 8 = true ∧ v.getLsbD 9 = true) ∨
    (v.getLsbD 0 = false ∧ v.getLsbD 1 = false) ∨ v.getLsbD 16 = true) : (s.writeCtrl v).irq = false := by
  cases hsrst : v.getLsbD 16 with
  | true => rw [writeCtrl_of_srst hsrst]; rfl
  | false =>
    rw [writeCtrl_of_not_srst hsrst]
    rcases h with ⟨herr, hdone⟩ | ⟨hieDone, hieErr⟩ | hsrst'
    · exact irq_of_no_cause (if_pos hdone) (congrArg ErrorRecord.code (if_pos herr))
    · exact irq_of_disabled hieDone hieErr
    · exact Bool.noConfusion (hsrst.symm.trans hsrst')

end

/-- Settles O52: the formula of the line, and what each end of a command and a CTRL write leave of it. -/
theorem interruptFollowsItsCauses : Obligations.InterruptFollowsItsCauses := by
  refine ⟨fun _ => irq_iff, fun _ _ _ _ hc hie => hc.irq hie, fun _ _ _ _ _ hraised hie => hraised.irq hie,
    fun s t v rest ha hv hs => ?_, rfl⟩
  rw [step_ctrlWrite ha] at hs
  cases hs
  exact writeCtrl_irq hv

end Sys2Proof.Machine

/-! # Reset and hazards (70_reset_and_hazards.md)

SUPPORT. The proofs for the two resets and the end of the reset sequence, the completion of every command, the progress
that an engine turn makes, and the end of a run. -/

namespace Sys2Proof.Machine

/-! ## Reset -/

/-- Settles O9: the engine's step has one of two forms, and is its turn's, planned or not. -/
theorem engineEndsResetOrIdles : Obligations.EngineEndsResetOrIdles := by
  refine fun s rest => ⟨fun hr ha => ?_, fun hr ha => ?_, fun hr hp ha => ?_, fun hr hp ha => ?_⟩
  · exact (step_engine ha).trans (engineStep_not_ready (s := s.setAgenda rest) hr)
  · exact (step_of_no_turns ha).trans (engineStep_not_ready hr)
  · exact (step_engine ha).trans (engineStep_idle (s := s.setAgenda rest) hr hp)
  · exact (step_of_no_turns ha).trans (engineStep_idle hr hp)

section
variable {s : State} {rest : List Turn}

/-- The hard and the soft reset are one step and leave the same state (R250). -/
theorem step_hardOrSoftReset {v : Word}
    (h : s.agenda = .reset :: rest ∨ (s.agenda = Turn.ctrlWrite v :: rest ∧ v.getLsbD 16 = true)) :
    step s = .next (s.setAgenda rest).resetBlock := by
  rcases h with ha | ⟨ha, hsrst⟩
  · exact step_reset ha
  · rw [step_ctrlWrite ha, writeCtrl_of_srst hsrst]

end

/-- Settles O54: every value of the state a reset leaves is written out in `State.reset`, READY = 0 among them, so that
the engine's next step ends the reset sequence. -/
theorem resetRestoresEveryValue : Obligations.ResetRestoresEveryValue := fun _ _ _ h =>
  ⟨_, step_hardOrSoftReset h, rfl, rfl, rfl, rfl, fun _ => ⟨rfl, rfl, rfl, rfl⟩, fun _ => rfl, fun _ => rfl,
    rfl, rfl, rfl, rfl, rfl, rfl, rfl, rfl, rfl, rfl, rfl, fun _ => (step_engine rfl).trans (engineStep_not_ready rfl)⟩

/-! ## Every command completes

A meaning is built of checks that raise and of writes, and each of them answers a next state; a value from the tables,
the one thing that a meaning may lack, is there in a legal configuration. -/

/-- The result is a next state, no stop. -/
def IsNext (result : Result) : Prop := ∃ t, result = .next t

section
variable {s : State}

theorem isNext_succeed : IsNext (succeed s) := ⟨_, rfl⟩

theorem isNext_fail {opc info : Byte} {kind : ErrorKind} : IsNext (fail s opc kind info) := ⟨_, rfl⟩

theorem isNext_succeedWith {α : Type} {value : Option α} {write : α → State} (h : ∃ v, value = some v) :
    IsNext (succeedWith value write) := by
  obtain ⟨v, rfl⟩ := h
  exact isNext_succeed

/-- A check that raises leaves to be shown what follows when it passes. -/
theorem isNext_check {c : Prop} [Decidable c] {opc info : Byte} {kind : ErrorKind} {k : Result}
    (h : ¬ c → IsNext k) : IsNext (if c then fail s opc kind info else k) := by
  split
  · exact isNext_fail
  · next hc => exact h hc

/-- A command answers a next state in a legal configuration: each value it needs of the tables, behind the checks that
it makes first, is there. -/
theorem exec_isNext (h : configOk s.cfg = true) (i : Instr) : IsNext (exec i s) := by
  cases i with
  | nop | add | mul | exp | zero => exact isNext_succeed
  | sett | wrc | rdc | setk | wrx | wry | rdx | rdy | rdw | lcomb => exact isNext_check fun _ => isNext_succeed
  | eval x => exact isNext_check fun _ => isNext_check fun _ => isNext_succeed
  | div a b => exact isNext_check fun hb => isNext_succeedWith (gfDiv_isSome h _ hb)
  | inv a => exact isNext_check fun ha => isNext_succeedWith (gfDiv_isSome h _ ha)
  | pow a n => exact isNext_succeedWith (gfPow_isSome h _ _)
  | log a =>
    refine isNext_check fun ha => isNext_succeedWith ?_
    obtain ⟨n, -, hl, -⟩ := logEntry_of_ne_zero h ha
    exact ⟨n, hl⟩
  | evalx =>
    refine isNext_check fun _ => isNext_check fun _ => isNext_check fun _ => ?_
    split
    · exact isNext_fail
    · exact isNext_succeed
  | lagw | interp =>
    refine isNext_check fun _ => ?_
    split
    · exact isNext_fail
    · next hx => exact isNext_succeedWith (lagWeights_isSome h hx)

end

/-- A command that has ended is pending no more, and READY is as it was (R58, R202). -/
theorem Effect.ends {i : Instr} {s t : State} (h : Effect i s t) : t.pending = none ∧ t.ready = s.ready := by
  cases h <;> exact ⟨rfl, rfl⟩

/-- Settles O55: a command answers a next state, and each effect that it can have ends it. -/
theorem everyCommandCompletes : Obligations.EveryCommandCompletes := by
  intro i s h
  obtain ⟨t, ht⟩ := exec_isNext h i
  exact ⟨t, ht, (exec_effect ht).ends⟩

/-! ## Progress of the engine -/

/-- A step of the engine is made, and either ends the reset sequence, or finds nothing pending, or completes what is
(R252, R262). -/
theorem engineStep_progress {s : State} (h : configOk s.cfg = true) :
    ∃ t, engineStep s = .next t ∧ t.ready = true ∧ (s.ready = true → t.pending = none) := by
  cases hr : s.ready with
  | false => exact ⟨_, engineStep_not_ready hr, rfl, nofun⟩
  | true =>
    cases hp : s.pending with
    | none => exact ⟨s, engineStep_idle hr hp, hr, fun _ => hp⟩
    | some w =>
      cases hd : decodeWord w with
      | ok i =>
        obtain ⟨t, ht, hpending, hready⟩ := everyCommandCompletes i s h
        exact ⟨t, (engineStep_command hr hp hd).trans ht, hready.trans hr, fun _ => hpending⟩
      | error e => exact ⟨_, engineStep_illegal hr hp hd, hr, fun _ => rfl⟩

/-- Settles O56: the engine's turn, planned or not, is a step of the engine. -/
theorem engineTurnMakesProgress : Obligations.EngineTurnMakesProgress := by
  intro s rest h ha
  rcases ha with hnone | hengine
  · rw [step_of_no_turns hnone]
    exact engineStep_progress h
  · rw [step_engine hengine]
    exact engineStep_progress (s := s.setAgenda rest) h

/-! ## The end of a run -/

section
variable {answers : Nat} {s t : State}

/-- Where a run ends, the three conditions of R263 hold. -/
theorem RunEndsAt.ended (h : RunEndsAt answers s t) : EndOfRun answers t := by
  induction h with
  | here ended => exact ended
  | later _ _ _ ih => exact ih

/-- A run ends at one state: each step has one outcome, and the first end is taken. -/
theorem RunEndsAt.unique {u : State} (ht : RunEndsAt answers s t) (hu : RunEndsAt answers s u) : u = t := by
  induction ht with
  | here ended =>
    cases hu with
    | here => rfl
    | later going => exact absurd ended going
  | later going next _ ih =>
    cases hu with
    | here ended => exact absurd ended going
    | later _ next' rest' =>
      cases next.symm.trans next'
      exact ih rest'

/-- A run ends when it ends from the state after its next step: there, or already here. -/
theorem exists_runEndsAt_of_step (hs : step s = .next t) (h : ∃ u, RunEndsAt answers t u) :
    ∃ u, RunEndsAt answers s u := by
  by_cases ended : EndOfRun answers s
  · exact ⟨s, .here ended⟩
  · obtain ⟨u, hu⟩ := h
    exact ⟨u, .later ended hs hu⟩

/-- With no turn to come, no command pending and the answers given, a run is at its end. -/
theorem endOfRun_of_no_turns (ha : s.agenda = []) (hp : s.pending = none) (hans : answers ≤ s.replies.length) :
    EndOfRun answers s :=
  ⟨fun _ => ha ▸ List.not_mem_nil, congrArg Option.isSome hp, hans⟩

/-- A turn makes its step in a legal configuration, when its access, if it is one, reaches the block. -/
theorem step_isNext (h : configOk s.cfg = true) (hw : ∀ access, Turn.host access ∈ s.agenda → access.InWindow) :
    ∃ u, step s = .next u := by
  cases ha : s.agenda with
  | nil =>
    obtain ⟨u, hu, -⟩ := engineTurnMakesProgress s [] h (.inl ha)
    exact ⟨u, hu⟩
  | cons turn rest =>
    cases turn with
    | engine =>
      obtain ⟨u, hu, -⟩ := engineTurnMakesProgress s rest h (.inr ha)
      exact ⟨u, hu⟩
    | reset => exact ⟨_, step_reset ha⟩
    | host access => exact step_host_isNext ha (hw access (by simp [ha]))

/-- A run with no turn to come ends after two steps of the engine at most: one ends the reset sequence, one completes
the pending command. -/
theorem exists_runEndsAt_of_no_turns (h : configOk s.cfg = true) (ha : s.agenda = [])
    (hans : answers ≤ s.replies.length) : ∃ t, RunEndsAt answers s t := by
  obtain ⟨u, hu, hready, -⟩ := engineTurnMakesProgress s [] h (.inl ha)
  obtain ⟨hagenda, hreplies, hcfg⟩ := engineStep_shell ((step_of_no_turns ha).symm.trans hu)
  have hau : u.agenda = [] := hagenda.trans ha
  obtain ⟨v, hv, -, hidle⟩ := engineTurnMakesProgress u [] (hcfg ▸ h) (.inl hau)
  obtain ⟨hagenda', hreplies', -⟩ := engineStep_shell ((step_of_no_turns hau).symm.trans hv)
  have hend : EndOfRun answers v :=
    endOfRun_of_no_turns (hagenda'.trans hau) (hidle hready) (by rwa [hreplies', hreplies])
  exact exists_runEndsAt_of_step hu (exists_runEndsAt_of_step hv ⟨v, .here hend⟩)

/-- A run whose accesses reach the block and whose reads are enough ends: the turns are used up one by one, and then
the engine has what is left to do. -/
theorem exists_runEndsAt (h : configOk s.cfg = true) (hw : ∀ access, Turn.host access ∈ s.agenda → access.InWindow)
    (hans : answers ≤ s.replies.length + (s.agenda.filter Turn.isRead).length) : ∃ t, RunEndsAt answers s t := by
  induction ha : s.agenda generalizing s with
  | nil => exact exists_runEndsAt_of_no_turns h ha (by simpa [ha] using hans)
  | cons turn rest ih =>
    obtain ⟨u, hu⟩ := step_isNext h hw
    obtain ⟨hagenda, hreads, hcfg⟩ := step_shell hu
    have hrest : u.agenda = rest := hagenda.trans (congrArg List.tail ha)
    have hwu : ∀ access, Turn.host access ∈ u.agenda → access.InWindow := fun access hmem =>
      hw access (List.mem_of_mem_tail (hagenda ▸ hmem))
    exact exists_runEndsAt_of_step hu (ih (hcfg ▸ h) hwu (hreads.symm ▸ hans) hrest)

end

/-- Settles O60: the end is unique and meets R263, of the turns to come it reads only whether a CMD write is among them,
and there is one, because the turns are used up. -/
theorem runEndsAtOneState : Obligations.RunEndsAtOneState := by
  refine fun answers s => ⟨fun t ht => ⟨ht.ended, fun u hu => ht.unique hu⟩, fun later hend hlater => ?_,
    exists_runEndsAt⟩
  obtain ⟨-, hbusy, hanswers⟩ := hend
  exact .here ⟨hlater, hbusy, hanswers⟩

end Sys2Proof.Machine

/-! # The placed command (log 11)

SUPPORT. The proof that a word placed by withFetchWord is the next command. -/

namespace Sys2Proof.Machine

/-- A word given as a number of the opcode table's width is itself. -/
@[simp] theorem tableWord_toNat (w : Word) : tableWord 32 w.toNat = w := by
  rw [tableWord, Nat.mod_eq_of_lt w.isLt, BitVec.ofNat_toNat, BitVec.setWidth_eq]

/-- Settles O8: the word placed is the command's own, and the engine has the turn with it pending. -/
theorem placedCommandRunsNext : Obligations.PlacedCommandRunsNext := by
  intro s i
  rw [State.withFetchWord, tableWord_toNat]
  obtain ⟨-, hplanned⟩ := engineRunsPendingCommand (s.withPendingWord (encode i)) (encode i) i s.agenda rfl rfl
    (decodeWord_encode i)
  exact hplanned rfl

end Sys2Proof.Machine
